-- ==== Sys2Proof/Word.lean ====
section
/-! DEFINITION. The word types of PPAC: 32-bit registers (R22), storage bytes (R11) and packed pixel values (R76). -/

namespace Sys2Proof

/-- A register's contents and a command word: 32 bits (R22, R70). -/
abbrev Word := BitVec 32

/-- A storage byte, 0 to 255 (R11). -/
abbrev Byte := BitVec 8

/-- A packed pixel value: 12 bits for Rgb444; a Gray4 value is its low 4 bits with the rest 0 (R76, R108). -/
abbrev Packed := BitVec 12

end Sys2Proof
end

