-- ==== Sys2Proof/Config.lean ====
section
/-! DEFINITION. The implementation parameters of R9 and the free value of the model. -/

namespace Sys2Proof

/-- The two OPEN parameters of R9 and D25, D3. They are arguments of the model: a field of State holds them, no step
changes them, and a statement over all states holds for every value of them. -/
structure Params where
  /-- P_LMAX, the most storage bytes one slot can hold (R9, R180). -/
  pLMax : Nat
  /-- P_BASE, the platform address of register offset 0x00 (R58). -/
  pBase : Nat
deriving DecidableEq, Repr

/-- DESIGN CHOICE (unsafe, log 4): the parameter values State.reset carries, since the spec leaves both OPEN.
64 is the capacity the spec's test vectors are written for. No statement rests on these values. -/
def Config.params : Params := { pLMax := 64, pBase := 0 }

/-- Free value (DESIGN CHOICE, safe, log 5): what a 32-bit register shows of an integer that does not fit 32 bits.
R32 and R36 state no value there; it can happen only when P_LMAX is above 2^32 - 1. -/
opaque Config.wideValue : Nat → Word

end Sys2Proof
end

