-- ==== Sys2Proof/Syntax.lean ====
section
/-! DEFINITION. The syntax of PPAC: the ten commands of the opcode table (R72), the register names (R22), the host
actions (R78) and the pseudo-instructions (R80). -/

namespace Sys2Proof

/-- The two buffer slots (R9: P_SLOTS = 2; R74: SEL = 0 names slot 0, SEL = 1 names slot 1). -/
inductive Slot where
  | s0
  | s1
deriving DecidableEq, Repr

/-- The two packed formats (R2). -/
inductive Mode where
  | gray4
  | rgb444
deriving DecidableEq, Repr

/-- The commands, one constructor per row of the opcode table (R72). SEL is the slot the command acts on. -/
inductive Instr where
  | config (sel : Slot) (mode : Mode)
  | addr (sel : Slot)
  | getpx (sel : Slot)
  | setpx (sel : Slot)
  | fill (sel : Slot)
  | fillrect (sel : Slot)
  | invert (sel : Slot)
  | blit (sel : Slot)
  | rawrd (sel : Slot)
  | rawwr (sel : Slot)
deriving DecidableEq, Repr

/-- The registers of the register map (R22), the reserved words left out. -/
inductive RegName where
  | cmd
  | status
  | opx
  | opy
  | opw
  | oph
  | opv
  | opi
  | opb
  | resVal
  | resRgb
  | resAddr
  | resInfo
  | resByte
  | s0Cfg
  | s0W
  | s0H
  | s0Len
  | s1Cfg
  | s1W
  | s1H
  | s1Len
deriving DecidableEq, Repr

/-- One entry of the host program (R21, R78): a register read, a register write, or (log 3) the platform's reset
(R230), which stands between two host actions. The address is a platform address (P_BASE plus an offset, R58) and the
width is in bits, so that the accesses R56 refuses can be written down. -/
inductive HostAction where
  | rd (address width : Nat)
  | wr (address width : Nat) (data : Word)
  | platformReset
deriving DecidableEq, Repr

/-- The pseudo-instructions (R80). -/
inductive Pseudo where
  | cfg (sel : Slot) (mode : Mode) (w h : Word)
  | paddr (sel : Slot) (x y : Word)
  | pget (sel : Slot) (x y : Word)
  | pset (sel : Slot) (x y v : Word)
  | pfill (sel : Slot) (v : Word)
  | prect (sel : Slot) (x y w h v : Word)
  | pinv (sel : Slot) (x y : Word)
  | pblit (sel : Slot) (x y : Word)
  | brd (sel : Slot) (i : Word)
  | bwr (sel : Slot) (i b : Word)
deriving DecidableEq, Repr

end Sys2Proof
end

