-- ==== Sys2Proof/WellFormed.lean ====
section
/-! DEFINITION. Well-formedness of the raw inputs: the fields of a command word (R73) and a host access (R56). A term
of Instr needs no check of its own: its operands are a slot and a mode, so every term names a legal command. -/

namespace Sys2Proof

/-- The fields of a command word (R71). -/
structure CommandFields where
  /-- OPC, w[7:0]. -/
  opc : BitVec 8
  /-- SEL, w[8]. -/
  sel : BitVec 1
  /-- MODE, w[9]. -/
  mode : BitVec 1
  /-- RSV, w[31:10]. -/
  rsv : BitVec 22
deriving DecidableEq, Repr

/-- R73 clause 1: the opcode is one of 0x01 to 0x0A. -/
def CommandFields.opcodeAssigned (f : CommandFields) : Bool := decide (1 ≤ f.opc.toNat ∧ f.opc.toNat ≤ 10)

/-- R73 clause 2: the reserved bits are 0. -/
def CommandFields.reservedClear (f : CommandFields) : Bool := decide (f.rsv = 0)

/-- R73 clause 3: MODE is 0, or the opcode is CONFIG's. -/
def CommandFields.modeOnlyOnConfig (f : CommandFields) : Bool := decide (f.mode = 0 ∨ f.opc = 1)

/-- A legal command word (R73). -/
def CommandFields.wellFormed (f : CommandFields) : Bool :=
  f.opcodeAssigned && f.reservedClear && f.modeOnlyOnConfig

/-- R56: the access is 32 bits wide. -/
def HostAction.widthOk : HostAction → Bool
  | .rd _ width => decide (width = 32)
  | .wr _ width _ => decide (width = 32)
  | .platformReset => true

/-- R50, R58: the address lies in the 0x100 bytes of register space at P_BASE. -/
def HostAction.inSpace (p : Params) : HostAction → Bool
  | .rd address _ => decide (p.pBase ≤ address ∧ address < p.pBase + 0x100)
  | .wr address _ _ => decide (p.pBase ≤ address ∧ address < p.pBase + 0x100)
  | .platformReset => true

/-- R56: the offset from P_BASE is a multiple of 4. -/
def HostAction.aligned (p : Params) : HostAction → Bool
  | .rd address _ => decide ((address - p.pBase) % 4 = 0)
  | .wr address _ _ => decide ((address - p.pBase) % 4 = 0)
  | .platformReset => true

/-- A host action PPAC has a step for (R56). -/
def HostAction.wellFormed (p : Params) (a : HostAction) : Bool := a.widthOk && a.inSpace p && a.aligned p

end Sys2Proof
end

