-- ==== Sys2Proof/Decode.lean ====
section
/-! DEFINITION. The decoder of command words (R70 to R75), total and rejecting by name, and the encoder (R71, R79). -/

namespace Sys2Proof

/-- Why a word is no command (R73, R77). Every one of them makes the command raise ILLEGAL. -/
inductive DecodeError where
  /-- OPC is 0x00 or 0x0B to 0xFF. -/
  | reservedOpcode
  /-- w[31:10] is not 0. -/
  | reservedBits
  /-- MODE is 1 on an opcode that is not CONFIG's. -/
  | modeOnOtherOpcode
deriving DecidableEq, Repr

/-- The fields of a command word (R71). -/
def fieldsOf (w : Word) : CommandFields :=
  { opc := w.extractLsb' 0 8, sel := w.extractLsb' 8 1, mode := w.extractLsb' 9 1, rsv := w.extractLsb' 10 22 }

/-- SEL as a slot (R74). -/
def slotOfBit (b : BitVec 1) : Slot := if b = 0 then .s0 else .s1

/-- MODE as a mode (R71: 0 selects Gray4 and 1 selects Rgb444). -/
def modeOfBit (b : BitVec 1) : Mode := if b = 0 then .gray4 else .rgb444

/-- The command an opcode names (R72). -/
def instrOfOpcode (opc : Nat) (sel : Slot) (mode : Mode) : Option Instr :=
  match opc with
  | 0x01 => some (.config sel mode)
  | 0x02 => some (.addr sel)
  | 0x03 => some (.getpx sel)
  | 0x04 => some (.setpx sel)
  | 0x05 => some (.fill sel)
  | 0x06 => some (.fillrect sel)
  | 0x07 => some (.invert sel)
  | 0x08 => some (.blit sel)
  | 0x09 => some (.rawrd sel)
  | 0x0A => some (.rawwr sel)
  | _ => none

/-- The decode procedure of R73, on the fields. -/
def decodeFields (f : CommandFields) : Except DecodeError Instr :=
  match instrOfOpcode f.opc.toNat (slotOfBit f.sel) (modeOfBit f.mode) with
  | none => .error .reservedOpcode
  | some i =>
    if f.rsv ≠ 0 then .error .reservedBits
    else if f.mode = 1 ∧ f.opc ≠ 1 then .error .modeOnOtherOpcode
    else .ok i

/-- The decoder reads the whole 32-bit word at once (R70, R73). -/
def decode (w : Word) : Except DecodeError Instr := decodeFields (fieldsOf w)

/-- OPC of each command (R72). -/
def opcodeOf : Instr → Nat
  | .config _ _ => 0x01
  | .addr _ => 0x02
  | .getpx _ => 0x03
  | .setpx _ => 0x04
  | .fill _ => 0x05
  | .fillrect _ => 0x06
  | .invert _ => 0x07
  | .blit _ => 0x08
  | .rawrd _ => 0x09
  | .rawwr _ => 0x0A

/-- The slot a command names in SEL. -/
def selOf : Instr → Slot
  | .config sel _ => sel
  | .addr sel => sel
  | .getpx sel => sel
  | .setpx sel => sel
  | .fill sel => sel
  | .fillrect sel => sel
  | .invert sel => sel
  | .blit sel => sel
  | .rawrd sel => sel
  | .rawwr sel => sel

/-- MODE of a command: an operand of CONFIG only (R71, R75). -/
def modeBitOf : Instr → Nat
  | .config _ .gray4 => 0
  | .config _ .rgb444 => 1
  | _ => 0

/-- SEL as a number (R74). -/
def slotNumber : Slot → Nat
  | .s0 => 0
  | .s1 => 1

/-- The word of a command: w = OPC | (SEL << 8) | (MODE << 9) (R71). -/
def encode (i : Instr) : Word :=
  BitVec.ofNat 32 (opcodeOf i) ||| (BitVec.ofNat 32 (slotNumber (selOf i)) <<< 8)
    ||| (BitVec.ofNat 32 (modeBitOf i) <<< 9)

/-- The decoder on a table word: the low `nbits` bits of `w`, every higher bit 0. A command is one 32-bit word that the
host writes whole (R70), so no byte order enters, and a longer word is no command. -/
def decodeTableWord (nbits w : Nat) : Option Instr :=
  if 32 < nbits then none
  else
    match decode (BitVec.ofNat 32 (w % 2 ^ nbits)) with
    | .ok i => some i
    | .error _ => none

end Sys2Proof
end

