-- ==== Sys2Proof/Machine/State.lean ====
section
/-! DEFINITION. The state of PPAC as plain data (R44), the reasons a step can stop, and the state after reset (R230). -/

namespace Sys2Proof.Machine

/-- The status codes (R200). Codes 0x9 to 0xF are never produced, so the type has no name for them. -/
inductive StatusCode where
  | ok
  | rangeError
  | notImplemented
  | coordFault
  | indexFault
  | notConfigured
  | badConfig
  | modeMismatch
  | illegal
deriving DecidableEq, Repr

/-- A slot's storage bytes as (index, byte) cells in one canonical form (log 8). -/
abbrev Memory := List Host.Cell

/-- What an unlisted storage index reads as: 0x00, the byte CONFIG stores at every index (R181). -/
def Memory.unlisted : Byte := 0x00#8

/-- The canonical form: indices strictly rising, and no entry equal to what an unlisted index reads as. -/
abbrev Memory.wf (m : Memory) : Prop :=
  m.Pairwise (fun c d => c.1 < d.1) ∧ ∀ c ∈ m, c.2 ≠ Memory.unlisted

/-- A configured packed-pixel buffer (R37). -/
structure Buffer where
  /-- S[s].mode. -/
  mode : Mode
  /-- S[s].W. -/
  width : Nat
  /-- S[s].H. -/
  height : Nat
  /-- S[s].L, the storage length in bytes. -/
  len : Nat
  /-- Mem_s. -/
  mem : Memory
deriving DecidableEq, Repr

/-- The machine: the host's position, the registers (R22, R44) and the two slots (R37). -/
structure State where
  /-- The OPEN parameters P_LMAX and P_BASE (R9), arguments of the model; no step changes them (log 4). -/
  params : Params
  /-- The host program (R21). -/
  program : List HostAction
  /-- The position in the host program (R21). -/
  index : Nat
  /-- The value the host's last register read returned (log 7). -/
  readData : Option Word
  /-- CMD (R23). -/
  cmd : Word
  /-- STATUS.CODE (R24). -/
  code : StatusCode
  /-- STATUS.ERRSEEN (R24). -/
  errSeen : Bool
  /-- OPX (R25). -/
  opx : Word
  /-- OPY (R25). -/
  opy : Word
  /-- OPW (R26). -/
  opw : Word
  /-- OPH (R26). -/
  oph : Word
  /-- OPV (R27). -/
  opv : Word
  /-- OPI (R28). -/
  opi : Word
  /-- OPB (R29). -/
  opb : Word
  /-- RES_VAL (R30). -/
  resVal : Word
  /-- RES_RGB (R31). -/
  resRgb : Word
  /-- RES_ADDR (R32). -/
  resAddr : Word
  /-- RES_INFO (R33). -/
  resInfo : Word
  /-- RES_BYTE (R34). -/
  resByte : Word
  /-- Slot 0: none while S[0].valid = 0, for then it holds no buffer and no bytes (R39). -/
  slot0 : Option Buffer
  /-- Slot 1: none while S[1].valid = 0 (R39). -/
  slot1 : Option Buffer
deriving DecidableEq, Repr

/-- The one fault. PPAC itself never stops: a failing command ends with a status code (R202, R205). -/
inductive Fault where
  /-- A storage access at an index that is not below the buffer's length. R51: no command ever forms one. Raised by
  Buffer.load and Buffer.store. Safe: no state that meets State.Inv reaches it (log 9). -/
  | storageIndex
deriving DecidableEq, Repr

/-- The host accesses the model has no step for. -/
inductive Refusal where
  /-- An instruction of the table that the model gives no meaning. Raised by no arm: every command has its meaning.
  Safe. -/
  | notModelled (mnemonic : String)
  /-- A host access narrower or wider than 32 bits (R56). Raised by checkAccess. Safe. -/
  | accessWidth
  /-- A host access at an offset that is not a multiple of 4 (R56). Raised by checkAccess. Safe. -/
  | misalignedAccess
  /-- A host access outside the 0x100 bytes of register space (R50; log 6). Raised by checkAccess. Safe. -/
  | outsideRegisterSpace
deriving DecidableEq, Repr

/-- The state after reset with the given parameters (R230): every register 0x00000000, both slots not valid, STATUS
OK with ERRSEEN = 0. The host program is empty and its index is 0 (R21; log 2). -/
def State.resetWith (p : Params) : State :=
  { params := p, program := [], index := 0, readData := none, cmd := 0, code := .ok, errSeen := false,
    opx := 0, opy := 0, opw := 0, oph := 0, opv := 0, opi := 0, opb := 0,
    resVal := 0, resRgb := 0, resAddr := 0, resInfo := 0, resByte := 0, slot0 := none, slot1 := none }

/-- The machine right after reset (R230). -/
def State.reset : State := State.resetWith Config.params

end Sys2Proof.Machine
end

