-- ==== Sys2Proof/Machine/Flags.lean ====
section
/-! DEFINITION. STATUS, the only record of an outcome (R24, R42): its codes and its word. -/

namespace Sys2Proof.Machine

/-- The number of a status code (R200). -/
def codeNumber : StatusCode → Nat
  | .ok => 0x0
  | .rangeError => 0x1
  | .notImplemented => 0x2
  | .coordFault => 0x3
  | .indexFault => 0x4
  | .notConfigured => 0x5
  | .badConfig => 0x6
  | .modeMismatch => 0x7
  | .illegal => 0x8

/-- The STATUS word (R24): CODE in [3:0], ERRSEEN in [8], every other bit 0. -/
def statusWord (code : StatusCode) (errSeen : Bool) : Word :=
  BitVec.ofNat 32 (codeNumber code) ||| (BitVec.ofNat 32 errSeen.toNat <<< 8)

end Sys2Proof.Machine
end

