-- ==== Sys2Proof/Machine/Ops.lean ====
section
/-! DEFINITION. The named operations over storage, slots and registers, and the one way a command ends: raise (R202)
or complete (R203). -/

namespace Sys2Proof.Machine

/-- The outcome of one command or one step. -/
abbrev Result := Host.Outcome State Fault Refusal

/-! ## Storage bytes -/

/-- The byte at a storage index. -/
def Memory.read : Memory → Nat → Byte
  | [], _ => Memory.unlisted
  | c :: m, a => if a = c.1 then c.2 else Memory.read m a

/-- Store a byte, keeping the canonical form: storing what an unlisted index reads as removes the entry. -/
def Memory.write : Memory → Nat → Byte → Memory
  | [], a, v => if v = Memory.unlisted then [] else [(a, v)]
  | c :: m, a, v =>
    if a < c.1 then (if v = Memory.unlisted then c :: m else (a, v) :: c :: m)
    else if a = c.1 then (if v = Memory.unlisted then m else (a, v) :: m)
    else c :: Memory.write m a v

/-- Byte i of a buffer's storage, wherever i lies: what a statement about stored bytes looks at. -/
def Buffer.byte (b : Buffer) (i : Nat) : Byte := Memory.read b.mem i

/-- `Mem_s[i]`, defined for a valid index, `i < L` (R51). -/
def Buffer.load (b : Buffer) (i : Nat) : Option Byte :=
  if i < b.len then some (b.byte i) else none

/-- `Mem_s[i] <- v`, defined for a valid index, `i < L` (R51). -/
def Buffer.store (b : Buffer) (i : Nat) (v : Byte) : Option Buffer :=
  if i < b.len then some { b with mem := Memory.write b.mem i v } else none

/-- `MemRead(s, a, n)`: the bytes at a, ..., a + n - 1 (R14). -/
def Buffer.memRead (b : Buffer) (a : Nat) : Nat → Option (List Byte)
  | 0 => some []
  | n + 1 => do
    let v ← b.load a
    let vs ← b.memRead (a + 1) n
    return v :: vs

/-- `MemWrite(s, a, n, bs)`: the bytes bs stored from index a up (R14). -/
def Buffer.memWrite (b : Buffer) (a : Nat) : List Byte → Option Buffer
  | [] => some b
  | v :: vs => do
    let b' ← b.store a v
    b'.memWrite (a + 1) vs

/-! ## Slots -/

/-- Bits per pixel (R9). -/
def bitsPerPixel : Mode → Nat
  | .gray4 => 4
  | .rgb444 => 12

/-- The storage length L = ceil(W * H * bpp / 8) (R10). -/
def storageLength (mode : Mode) (width height : Nat) : Nat := (width * height * bitsPerPixel mode + 7) / 8

/-- A new buffer with every storage byte 0x00 (R181). -/
def freshBuffer (mode : Mode) (width height : Nat) : Buffer :=
  { mode := mode, width := width, height := height, len := storageLength mode width height, mem := [] }

/-- The other slot, 1 - SEL (R160). -/
def otherSlot : Slot → Slot
  | .s0 => .s1
  | .s1 => .s0

/-- The buffer a slot holds; none while the slot is not valid (R37, R39). -/
def State.slot (s : State) : Slot → Option Buffer
  | .s0 => s.slot0
  | .s1 => s.slot1

/-- Put a buffer in a slot; the other slot is unchanged (R65). -/
def State.setSlot (s : State) (sel : Slot) (b : Buffer) : State :=
  match sel with
  | .s0 => { s with slot0 := some b }
  | .s1 => { s with slot1 := some b }

/-! ## How a command ends -/

/-- `raise CODE` (R202): STATUS.CODE and ERRSEEN are written and nothing else changes. This is PPAC's one way to take
an error; nothing traps and nothing returns (R205, R206). -/
def State.raise (s : State) (c : StatusCode) : State := { s with code := c, errSeen := true }

/-- A command that ends without raising (R203): CODE becomes OK and ERRSEEN stays. -/
def State.complete (s : State) : State := { s with code := .ok }

/-- Run a command on the buffer of a slot, or raise NOT_CONFIGURED (R120, R200). -/
def withBuffer (s : State) (sel : Slot) (k : Buffer → Result) : Result :=
  match s.slot sel with
  | none => .next (s.raise .notConfigured)
  | some b => k b

/-- End a command with what a storage operation answered: the rest of the command on its result, or the fault of an
index outside the storage (R51; log 9). -/
def withStored {α : Type} (r : Option α) (k : α → State) : Result :=
  match r with
  | some a => .next (k a).complete
  | none => .fault .storageIndex

/-! ## Registers -/

/-- An integer as a 32-bit register shows it. Above 2^32 - 1 the spec states no value (log 5). -/
def regOfNat (n : Nat) : Word := if n < 2 ^ 32 then BitVec.ofNat 32 n else Config.wideValue n

/-- The offset of a register (R22). -/
def offsetOf : RegName → Nat
  | .cmd => 0x00
  | .status => 0x04
  | .opx => 0x08
  | .opy => 0x0C
  | .opw => 0x10
  | .oph => 0x14
  | .opv => 0x18
  | .opi => 0x1C
  | .opb => 0x20
  | .resVal => 0x24
  | .resRgb => 0x28
  | .resAddr => 0x2C
  | .resInfo => 0x30
  | .resByte => 0x34
  | .s0Cfg => 0x40
  | .s0W => 0x44
  | .s0H => 0x48
  | .s0Len => 0x4C
  | .s1Cfg => 0x50
  | .s1W => 0x54
  | .s1H => 0x58
  | .s1Len => 0x5C

/-- The register at an offset; none at a reserved offset (R22, R40). -/
def registerAt (offset : Nat) : Option RegName :=
  match offset with
  | 0x00 => some .cmd
  | 0x04 => some .status
  | 0x08 => some .opx
  | 0x0C => some .opy
  | 0x10 => some .opw
  | 0x14 => some .oph
  | 0x18 => some .opv
  | 0x1C => some .opi
  | 0x20 => some .opb
  | 0x24 => some .resVal
  | 0x28 => some .resRgb
  | 0x2C => some .resAddr
  | 0x30 => some .resInfo
  | 0x34 => some .resByte
  | 0x40 => some .s0Cfg
  | 0x44 => some .s0W
  | 0x48 => some .s0H
  | 0x4C => some .s0Len
  | 0x50 => some .s1Cfg
  | 0x54 => some .s1W
  | 0x58 => some .s1H
  | 0x5C => some .s1Len
  | _ => none

/-- MODE in Sn_CFG[0] (R35). -/
def modeNumber : Mode → Nat
  | .gray4 => 0
  | .rgb444 => 1

/-- Sn_CFG (R35): VALID in [31], MODE in [0]; 0 while the slot is not valid. -/
def cfgWord : Option Buffer → Word
  | none => 0
  | some b => 0x80000000#32 ||| BitVec.ofNat 32 (modeNumber b.mode)

/-- Sn_W, Sn_H or Sn_LEN (R36): a field of the slot, 0 while the slot is not valid. -/
def fieldWord (slot : Option Buffer) (field : Buffer → Nat) : Word :=
  match slot with
  | none => 0
  | some b => regOfNat (field b)

/-- `reg[NAME]`, read by the host (R22 to R36). A read has no side effect (R57). -/
def State.readReg (s : State) : RegName → Word
  | .cmd => s.cmd
  | .status => statusWord s.code s.errSeen
  | .opx => s.opx
  | .opy => s.opy
  | .opw => s.opw
  | .oph => s.oph
  | .opv => s.opv
  | .opi => s.opi
  | .opb => s.opb
  | .resVal => s.resVal
  | .resRgb => s.resRgb
  | .resAddr => s.resAddr
  | .resInfo => s.resInfo
  | .resByte => s.resByte
  | .s0Cfg => cfgWord s.slot0
  | .s0W => fieldWord s.slot0 Buffer.width
  | .s0H => fieldWord s.slot0 Buffer.height
  | .s0Len => fieldWord s.slot0 Buffer.len
  | .s1Cfg => cfgWord s.slot1
  | .s1W => fieldWord s.slot1 Buffer.width
  | .s1H => fieldWord s.slot1 Buffer.height
  | .s1Len => fieldWord s.slot1 Buffer.len

/-- A host write to a register other than its command: the seven RW registers and CMD store the whole word (R23, R25 to
R29); a read-only register ignores it (R41). -/
def State.writeReg (s : State) (r : RegName) (w : Word) : State :=
  match r with
  | .cmd => { s with cmd := w }
  | .opx => { s with opx := w }
  | .opy => { s with opy := w }
  | .opw => { s with opw := w }
  | .oph => { s with oph := w }
  | .opv => { s with opv := w }
  | .opi => { s with opi := w }
  | .opb => { s with opb := w }
  | .status | .resVal | .resRgb | .resAddr | .resInfo | .resByte
  | .s0Cfg | .s0W | .s0H | .s0Len | .s1Cfg | .s1W | .s1H | .s1Len => s

/-- The value a host read at an offset returns; a reserved offset reads 0 (R40). -/
def State.readOffset (s : State) (offset : Nat) : Word :=
  match registerAt offset with
  | some r => s.readReg r
  | none => 0

/-- The host's position moves past one action (R21). -/
def State.advance (s : State) : State := { s with index := s.index + 1 }

/-- What the host's read returned is kept where it can be seen (log 7). -/
def State.setReadData (s : State) (w : Word) : State := { s with readData := some w }

/-- RES_ADDR and RES_INFO, written together (R32, R33). -/
def State.setAccess (s : State) (addr info : Word) : State := { s with resAddr := addr, resInfo := info }

/-- RES_VAL and RES_RGB, written by GETPX (R30, R31). -/
def State.setPixel (s : State) (value rgb : Word) : State := { s with resVal := value, resRgb := rgb }

/-- RES_BYTE, written by RAWRD (R34). -/
def State.setByte (s : State) (w : Word) : State := { s with resByte := w }

/-- The platform's reset (R230): nothing of PPAC survives it. What is the host's own stays: its program, its position
and what it last read (log 3). -/
def State.platformReset (s : State) : State :=
  { State.resetWith s.params with program := s.program, index := s.index, readData := s.readData }

end Sys2Proof.Machine
end

