-- ==== Sys2Proof/Machine/Operands.lean ====
section
/-! DEFINITION. Operand assembly (R76): how a command reads the operand registers. -/

namespace Sys2Proof.Machine

/-- x = sext_32(reg[OPX]) (R76). -/
def State.operandX (s : State) : Int := s.opx.toInt

/-- y = sext_32(reg[OPY]) (R76). -/
def State.operandY (s : State) : Int := s.opy.toInt

/-- w = sext_32(reg[OPW]) (R76). -/
def State.operandW (s : State) : Int := s.opw.toInt

/-- h = sext_32(reg[OPH]) (R76). -/
def State.operandH (s : State) : Int := s.oph.toInt

/-- v = reg[OPV][3:0] for a Gray4 slot, reg[OPV][11:0] for an Rgb444 slot, zero-extended (R76). -/
def State.operandV (s : State) : Mode → Packed
  | .gray4 => (s.opv.extractLsb' 0 4).setWidth 12
  | .rgb444 => s.opv.extractLsb' 0 12

/-- i = reg[OPI], unsigned (R76). -/
def State.operandI (s : State) : Nat := s.opi.toNat

/-- b = reg[OPB][7:0] (R76). -/
def State.operandB (s : State) : Byte := s.opb.extractLsb' 0 8

end Sys2Proof.Machine
end

