-- ==== Sys2Proof/Machine/PixelUnits.lean ====
section
/-! DEFINITION. The pixel datapath units of 40_pixel_units.md: address calculator, mask generator, lane alignment, read
multiplexer, write-back, expansion, and the composite pixel read and write. Each is a pure function. -/

namespace Sys2Proof.Machine

/-- The phase of a coordinate, x mod 2 (R100). -/
inductive Phase where
  | even
  | odd
deriving DecidableEq, Repr

/-- x mod 2 as a phase (R100). -/
def phaseOf (x : Nat) : Phase := if x % 2 = 0 then .even else .odd

/-- The phase as a number: RES_INFO.PHASE (R33). -/
def phaseNumber : Phase → Nat
  | .even => 0
  | .odd => 1

/-- nb, the number of consecutive bytes a pixel touches (R100). -/
def bytesTouched : Mode → Nat
  | .gray4 => 1
  | .rgb444 => 2

/-- idx0, the first byte a pixel touches (R101 to R103), with `y * W` divided left to right. -/
def addressOf (mode : Mode) (width x y : Nat) : Nat :=
  match mode, phaseOf x with
  | .gray4, _ => (y * width) / 2 + x / 2
  | .rgb444, .even => ((x + y * width) * 3) / 2
  | .rgb444, .odd => ((x - 1 + y * width) * 3) / 2 + 1

/-- MG (R106): the bits of byte idx0 and of byte idx0 + 1 that belong to the pixel. -/
def pixelMasks : Mode → Phase → Byte × Byte
  | .gray4, .even => (0xF0#8, 0x00#8)
  | .gray4, .odd => (0x0F#8, 0x00#8)
  | .rgb444, .even => (0xFF#8, 0xF0#8)
  | .rgb444, .odd => (0x0F#8, 0xFF#8)

/-- ALIGN (R107): a packed value placed into byte lanes. A Gray4 value is 4 bits, so its lane takes the low 4 bits. -/
def alignLanes (mode : Mode) (phase : Phase) (v : Packed) : Byte × Byte :=
  match mode, phase with
  | .gray4, .even => ((v.setWidth 4).setWidth 8 <<< 4, 0x00#8)
  | .gray4, .odd => ((v.setWidth 4).setWidth 8, 0x00#8)
  | .rgb444, .even => ((v >>> 4).setWidth 8, ((v &&& 0xF#12) <<< 4).setWidth 8)
  | .rgb444, .odd => ((v >>> 8).setWidth 8, (v &&& 0xFF#12).setWidth 8)

/-- RM (R108): the packed value in the touched bytes. -/
def readMux (mode : Mode) (phase : Phase) (b0 b1 : Byte) : Packed :=
  match mode, phase with
  | .gray4, .even => (b0 >>> 4).setWidth 12
  | .gray4, .odd => (b0 &&& 0x0F#8).setWidth 12
  | .rgb444, .even => (b0.setWidth 12 <<< 4) ||| (b1 >>> 4).setWidth 12
  | .rgb444, .odd => ((b0 &&& 0x0F#8).setWidth 12 <<< 8) ||| b1.setWidth 12

/-- WB (R109): the keep-mask bits stay and the pixel-mask bits take the lane. -/
def writeBack (old pm d : Byte) : Byte := (old &&& ~~~pm) ||| d

/-- One channel of the Rgb444 expansion: (c * 255) div 15 (R110). -/
def expandChannel (c : BitVec 4) : Byte := BitVec.ofNat 8 (c.toNat * 255 / 15)

/-- EXPAND (R110): the 8-bit channels (R8, G8, B8) of a packed value. -/
def expandColour (mode : Mode) (v : Packed) : Byte × Byte × Byte :=
  match mode with
  | .gray4 => ((v.setWidth 8) <<< 4, (v.setWidth 8) <<< 4, (v.setWidth 8) <<< 4)
  | .rgb444 =>
    (expandChannel (v.extractLsb' 8 4), expandChannel (v.extractLsb' 4 4), expandChannel (v.extractLsb' 0 4))

/-- ReadPixel (R112). -/
def Buffer.readPixel (b : Buffer) (x y : Nat) : Option Packed :=
  let idx0 := addressOf b.mode b.width x y
  let p := phaseOf x
  do
    let b0 ← b.load idx0
    let b1 ← if bytesTouched b.mode = 2 then b.load (idx0 + 1) else some 0
    return readMux b.mode p b0 b1

/-- WritePixel (R113): byte idx0 first, then byte idx0 + 1 where the pixel touches two. -/
def Buffer.writePixel (b : Buffer) (x y : Nat) (v : Packed) : Option Buffer :=
  let idx0 := addressOf b.mode b.width x y
  let pm := pixelMasks b.mode (phaseOf x)
  let d := alignLanes b.mode (phaseOf x) v
  do
    let b0 ← b.load idx0
    let b' ← b.store idx0 (writeBack b0 pm.1 d.1)
    if bytesTouched b.mode = 2 then do
      let b1 ← b'.load (idx0 + 1)
      b'.store (idx0 + 1) (writeBack b1 pm.2 d.2)
    else some b'

/-- RES_INFO (R33): p | (nb << 1) | (pm0 << 8) | (pm1 << 16). -/
def infoWord (mode : Mode) (x : Nat) : Word :=
  let pm := pixelMasks mode (phaseOf x)
  BitVec.ofNat 32 (phaseNumber (phaseOf x)) ||| (BitVec.ofNat 32 (bytesTouched mode) <<< 1)
    ||| (pm.1.setWidth 32 <<< 8) ||| (pm.2.setWidth 32 <<< 16)

/-- RES_RGB (R31): (r8 << 16) | (g8 << 8) | b8. -/
def rgbWord (c : Byte × Byte × Byte) : Word :=
  (c.1.setWidth 32 <<< 16) ||| (c.2.1.setWidth 32 <<< 8) ||| c.2.2.setWidth 32

/-- The pixels of a w by h rectangle at (x, y) in row-major order: y ascending outside, x ascending inside (R147,
R168). -/
def rowMajor (x y w h : Nat) : List (Nat × Nat) :=
  (List.range h).flatMap fun j => (List.range w).map fun i => (x + i, y + j)

end Sys2Proof.Machine
end

