-- ==== Sys2Proof/Machine/Blit.lean ====
section
/-! DEFINITION. The block copy of 43_blit.md: BLIT with its byte-copy fast paths and its per-pixel fallback. -/

namespace Sys2Proof.Machine

/-- The fast-path condition: R164 for Gray4, R165 for Rgb444. -/
def fastPath (dst src : Buffer) (x : Nat) : Bool :=
  match dst.mode with
  | .gray4 => decide (x % 2 = 0 ∧ src.width % 2 = 0)
  | .rgb444 => decide (dst.width % 2 = 0 ∧ x % 2 = 0 ∧ src.width % 2 = 0)

/-- n, the bytes a fast-path row copies (R166, R167). -/
def rowBytes (mode : Mode) (srcWidth : Nat) : Nat :=
  match mode with
  | .gray4 => srcWidth / 2
  | .rgb444 => srcWidth / 2 * 3

/-- do, the destination byte offset of source row r (R166, R167; 90_conflicts.md C1: halved, not `>> 2`). -/
def rowTarget (mode : Mode) (width x y r : Nat) : Nat :=
  match mode with
  | .gray4 => (width * (y + r) + x) / 2
  | .rgb444 => ((width * (y + r) + x) * 3) / 2

/-- so, the source byte offset of row r (R166, R167). -/
def rowSource (mode : Mode) (srcWidth r : Nat) : Nat :=
  match mode with
  | .gray4 => (r * srcWidth) / 2
  | .rgb444 => (r * srcWidth * 3) / 2

/-- One row of the fast path: whole bytes from the source row to the destination (R166, R167). -/
def Buffer.copyRow (dst src : Buffer) (x y r : Nat) : Option Buffer := do
  let bs ← src.memRead (rowSource dst.mode src.width r) (rowBytes dst.mode src.width)
  dst.memWrite (rowTarget dst.mode dst.width x y r) bs

/-- The fast path: the rows r = 0, ..., SH - 1 in turn (R166, R167). -/
def Buffer.copyRows (dst src : Buffer) (x y : Nat) : Option Buffer :=
  (List.range src.height).foldlM (fun d r => d.copyRow src x y r) dst

/-- One pixel of the fallback (R168). -/
def Buffer.copyPixel (dst src : Buffer) (x y i r : Nat) : Option Buffer := do
  let v ← src.readPixel i r
  dst.writePixel (x + i) (y + r) v

/-- The fallback: every source pixel in row-major order (R168). -/
def Buffer.copyPixels (dst src : Buffer) (x y : Nat) : Option Buffer :=
  (rowMajor 0 0 src.width src.height).foldlM (fun d p => d.copyPixel src x y p.1 p.2) dst

/-- The copy on the path R164 and R165 select. -/
def Buffer.blitFrom (dst src : Buffer) (x y : Nat) : Option Buffer :=
  if fastPath dst src x then dst.copyRows src x y else dst.copyPixels src x y

/-- BLIT (R170): copy the other slot's buffer into slot SEL at (x, y). -/
def execBlit (sel : Slot) (s : State) : Result :=
  withBuffer s sel fun dst =>
    withBuffer s (otherSlot sel) fun src =>
      if dst.mode ≠ src.mode then .next (s.raise .modeMismatch)
      else if s.operandX < 0 ∨ s.operandY < 0 ∨ s.operandX + src.width > dst.width
          ∨ s.operandY + src.height > dst.height then
        .next (s.raise .coordFault)
      else
        withStored (dst.blitFrom src s.operandX.toNat s.operandY.toNat) fun dst' => s.setSlot sel dst'

end Sys2Proof.Machine
end

