-- ==== Sys2Proof/Machine/BufferManagement.lean ====
section
/-! DEFINITION. Buffer management and raw access of 44_buffer_management.md: CONFIG, RAWRD, RAWWR. -/

namespace Sys2Proof.Machine

/-- CONFIG (R180 to R182): a new zero-filled buffer in slot SEL. It reads no slot. -/
def execConfig (sel : Slot) (mode : Mode) (s : State) : Result :=
  if s.operandW < 1 ∨ s.operandH < 1 then .next (s.raise .badConfig)
  else if storageLength mode s.operandW.toNat s.operandH.toNat > s.params.pLMax then .next (s.raise .badConfig)
  else .next (s.setSlot sel (freshBuffer mode s.operandW.toNat s.operandH.toNat)).complete

/-- RAWRD (R184): one storage byte by index. -/
def execRawrd (sel : Slot) (s : State) : Result :=
  withBuffer s sel fun b =>
    if s.operandI ≥ b.len then .next (s.raise .indexFault)
    else withStored (b.load s.operandI) fun v => s.setByte (v.setWidth 32)

/-- RAWWR (R185): one storage byte by index, whole, with no mask. -/
def execRawwr (sel : Slot) (s : State) : Result :=
  withBuffer s sel fun b =>
    if s.operandI ≥ b.len then .next (s.raise .indexFault)
    else withStored (b.store s.operandI s.operandB) fun b' => s.setSlot sel b'

end Sys2Proof.Machine
end

