-- ==== Sys2Proof/Machine/Fill.lean ====
section
/-! DEFINITION. The fill engine of 42_fill.md: FILL by the doubling copy, FILLRECT by masked pixel writes. -/

namespace Sys2Proof.Machine

/-- The fill pattern P, of unit length u: one byte for Gray4 (R140), three for Rgb444 (R141). -/
def fillPattern (mode : Mode) (v : Packed) : List Byte :=
  match mode with
  | .gray4 => [((v.setWidth 4).setWidth 8 <<< 4) ||| (v.setWidth 4).setWidth 8]
  | .rgb444 =>
    [(v >>> 4).setWidth 8, (((v &&& 0xF#12) <<< 4) ||| (v >>> 8)).setWidth 8, (v &&& 0xFF#12).setWidth 8]

/-- The loop of R142: while f < L, copy the filled prefix, or as much of it as is wanted, to the bytes after it. `fuel`
bounds the number of copies; L copies are always enough. -/
def doublingCopy (fuel f : Nat) (b : Buffer) : Option Buffer :=
  match fuel with
  | 0 => some b
  | fuel + 1 =>
    if f < b.len then do
      let c := min f (b.len - f)
      let bs ← b.memRead 0 c
      let b' ← b.memWrite f bs
      doublingCopy fuel (f + c) b'
    else some b

/-- The doubling fill (R142): the seed, cut to L bytes when L < u, and then the copies. -/
def Buffer.fillAll (b : Buffer) (pattern : List Byte) : Option Buffer := do
  let n0 := min pattern.length b.len
  let b' ← b.memWrite 0 (pattern.take n0)
  doublingCopy b.len n0 b'

/-- FILL (R144): one packed value over the whole buffer. -/
def execFill (sel : Slot) (s : State) : Result :=
  withBuffer s sel fun b =>
    withStored (b.fillAll (fillPattern b.mode (s.operandV b.mode))) fun b' => s.setSlot sel b'

/-- The per-pixel loop of R147 over a list of pixels. -/
def Buffer.fillPixels (b : Buffer) (pixels : List (Nat × Nat)) (v : Packed) : Option Buffer :=
  pixels.foldlM (fun b p => b.writePixel p.1 p.2 v) b

/-- FILLRECT (R148): the range check of R146, then every pixel of the rectangle in row-major order. A w or h that is
not positive makes the loops empty (R147). -/
def execFillrect (sel : Slot) (s : State) : Result :=
  withBuffer s sel fun b =>
    if s.operandX < 0 ∨ s.operandY < 0 ∨ s.operandX + s.operandW > b.width
        ∨ s.operandY + s.operandH > b.height then
      .next (s.raise .rangeError)
    else
      withStored
        (b.fillPixels (rowMajor s.operandX.toNat s.operandY.toNat s.operandW.toNat s.operandH.toNat)
          (s.operandV b.mode))
        fun b' => s.setSlot sel b'

end Sys2Proof.Machine
end

