-- ==== Sys2Proof/Machine/PixelAccess.lean ====
section
/-! DEFINITION. The pixel access commands of 41_pixel_access.md: ADDR, GETPX, SETPX, INVERT. -/

namespace Sys2Proof.Machine

/-- The shared checks of R120 and R121: the slot holds a buffer and 0 <= x < W and 0 <= y < H on signed integers. The
command then runs on the buffer at the coordinate. -/
def withPixel (s : State) (sel : Slot) (k : Buffer → Nat → Nat → Result) : Result :=
  withBuffer s sel fun b =>
    if 0 ≤ s.operandX ∧ s.operandX < b.width ∧ 0 ≤ s.operandY ∧ s.operandY < b.height then
      k b s.operandX.toNat s.operandY.toNat
    else .next (s.raise .coordFault)

/-- RES_ADDR and RES_INFO of an access to pixel (x, y) of a buffer (R32, R33). -/
def State.recordAccess (s : State) (b : Buffer) (x y : Nat) : State :=
  s.setAccess (regOfNat (addressOf b.mode b.width x y)) (infoWord b.mode x)

/-- ADDR (R122): the address calculator and mask generator, without touching storage. -/
def execAddr (sel : Slot) (s : State) : Result :=
  withPixel s sel fun b x y => .next (s.recordAccess b x y).complete

/-- GETPX (R123): read one pixel and expand it. -/
def execGetpx (sel : Slot) (s : State) : Result :=
  withPixel s sel fun b x y =>
    withStored (b.readPixel x y) fun v =>
      (s.setPixel (v.setWidth 32) (rgbWord (expandColour b.mode v))).recordAccess b x y

/-- SETPX (R124): write one pixel, preserving the neighbour. -/
def execSetpx (sel : Slot) (s : State) : Result :=
  withPixel s sel fun b x y =>
    withStored (b.writePixel x y (s.operandV b.mode)) fun b' => (s.setSlot sel b').recordAccess b x y

/-- INVERT (R125): always NOT_IMPLEMENTED, before any slot check; SEL has no effect on the outcome (R74). -/
def execInvert (_sel : Slot) (s : State) : Result := .next (s.raise .notImplemented)

end Sys2Proof.Machine
end

