-- ==== Sys2Proof/Machine/Dispatch.lean ====
section
/-! DEFINITION. One arm per command of the opcode table (R72). -/

namespace Sys2Proof.Machine

-- The command an opcode names runs its rule (R73).
def exec (i : Instr) (s : State) : Host.Outcome State Fault Refusal :=
  match i with
  | .config sel mode => Sys2Proof.Machine.execConfig sel mode s
  | .addr sel => Sys2Proof.Machine.execAddr sel s
  | .getpx sel => Sys2Proof.Machine.execGetpx sel s
  | .setpx sel => Sys2Proof.Machine.execSetpx sel s
  | .fill sel => Sys2Proof.Machine.execFill sel s
  | .fillrect sel => Sys2Proof.Machine.execFillrect sel s
  | .invert sel => Sys2Proof.Machine.execInvert sel s
  | .blit sel => Sys2Proof.Machine.execBlit sel s
  | .rawrd sel => Sys2Proof.Machine.execRawrd sel s
  | .rawwr sel => Sys2Proof.Machine.execRawwr sel s

end Sys2Proof.Machine
end

