-- ==== Sys2Proof/Machine/HostPort.lean ====
section
/-! DEFINITION. The host's port: register reads and writes (R22, R40, R41, R56), the command a CMD write runs (R23), and
the host program's actions (R21, R78). -/

namespace Sys2Proof.Machine

/-- The offset a host access names, or the refusal of an access PPAC has no step for (R50, R56, R58). Width is looked
at first, then the space, then the alignment (log 15). -/
def checkAccess (p : Params) (address width : Nat) : Except Refusal Nat :=
  if width ≠ 32 then .error .accessWidth
  else if address < p.pBase ∨ p.pBase + 0x100 ≤ address then .error .outsideRegisterSpace
  else if (address - p.pBase) % 4 ≠ 0 then .error .misalignedAccess
  else .ok (address - p.pBase)

/-- A host write of w to CMD (R23): the word is stored and the command it encodes runs; an illegal word raises ILLEGAL
(R73, R77). -/
def runCommand (w : Word) (s : State) : Result :=
  match decode w with
  | .ok i => exec i (s.writeReg .cmd w)
  | .error _ => .next ((s.writeReg .cmd w).raise .illegal)

/-- A host write at an offset (R22, R23, R40, R41). -/
def hostWrite (offset : Nat) (w : Word) (s : State) : Result :=
  match registerAt offset with
  | some .cmd => runCommand w s
  | some r => .next (s.writeReg r w)
  | none => .next s

/-- One action of the host program (R78), the host's position already moved past it (R21). -/
def perform (a : HostAction) (s : State) : Result :=
  match a with
  | .rd address width =>
    match checkAccess s.params address width with
    | .ok offset => .next (s.setReadData (s.readOffset offset))
    | .error r => .refused r
  | .wr address width data =>
    match checkAccess s.params address width with
    | .ok offset => hostWrite offset data s
    | .error r => .refused r
  | .platformReset => .next s.platformReset

/-- The action at the host's position; none when the host program is over (R21). -/
def State.currentAction (s : State) : Option HostAction := s.program[s.index]?

/-- The host action that writes w to a register (R78). -/
def writeAction (p : Params) (r : RegName) (w : Word) : HostAction := .wr (p.pBase + offsetOf r) 32 w

/-- The host program with action a at position n, every other position as it was. Positions past the old end, which the
host has passed, are filled with the same action. -/
def placeAction (program : List HostAction) (n : Nat) (a : HostAction) : List HostAction :=
  program.take n ++ List.replicate (n - program.length) a ++ a :: program.drop (n + 1)

end Sys2Proof.Machine
end

