-- ==== Sys2Proof/Machine/Step.lean ====
section
/-! DEFINITION. One step of the machine: the action at the host's position (R21), as one atomic step (R57). -/

namespace Sys2Proof.Machine

/-- One host action (R21, R57). When the host program is over, PPAC holds its state (R213; log 1). -/
def step (s : State) : Host.Outcome State Fault Refusal :=
  match s.currentAction with
  | some a => perform a s.advance
  | none => .next s

/-- s with the write of the word to CMD as the host's next action (R23): what stands for loading a program (log 2).
The word's bits above nbits are 0; a command is 32 bits (R70). -/
def State.withFetchWord (s : State) (nbits w : Nat) : State :=
  { s with
    program :=
      placeAction s.program s.index (writeAction s.params .cmd (BitVec.ofNat 32 (w % 2 ^ nbits))) }

end Sys2Proof.Machine
end

