-- ==== Sys2Proof/Machine/Assembly.lean ====
section
/-! DEFINITION. The assembly notation of R78 to R80 as data: EXEC and the pseudo-instructions' expansions. -/

namespace Sys2Proof.Machine

/-- `EXEC <mnemonic> s<n>` stands for `WR CMD, <word>` (R79). -/
def execAction (p : Params) (i : Instr) : HostAction := writeAction p .cmd (encode i)

/-- The operand writes of a pseudo-instruction, in order (R80). -/
def pseudoOperands : Pseudo → List (RegName × Word)
  | .cfg _ _ w h => [(.opw, w), (.oph, h)]
  | .paddr _ x y => [(.opx, x), (.opy, y)]
  | .pget _ x y => [(.opx, x), (.opy, y)]
  | .pset _ x y v => [(.opx, x), (.opy, y), (.opv, v)]
  | .pfill _ v => [(.opv, v)]
  | .prect _ x y w h v => [(.opx, x), (.opy, y), (.opw, w), (.oph, h), (.opv, v)]
  | .pinv _ x y => [(.opx, x), (.opy, y)]
  | .pblit _ x y => [(.opx, x), (.opy, y)]
  | .brd _ i => [(.opi, i)]
  | .bwr _ i b => [(.opi, i), (.opb, b)]

/-- The command a pseudo-instruction ends with (R80). -/
def pseudoCommand : Pseudo → Instr
  | .cfg sel mode _ _ => .config sel mode
  | .paddr sel _ _ => .addr sel
  | .pget sel _ _ => .getpx sel
  | .pset sel _ _ _ => .setpx sel
  | .pfill sel _ => .fill sel
  | .prect sel _ _ _ _ _ => .fillrect sel
  | .pinv sel _ _ => .invert sel
  | .pblit sel _ _ => .blit sel
  | .brd sel _ => .rawrd sel
  | .bwr sel _ _ => .rawwr sel

/-- The host actions a pseudo-instruction expands to, in order (R80). -/
def expandPseudo (p : Params) (q : Pseudo) : List HostAction :=
  (pseudoOperands q).map (fun o => writeAction p o.1 o.2) ++ [execAction p (pseudoCommand q)]

end Sys2Proof.Machine
end

