-- ==== Sys2Proof/Safety.lean ====
section
/-! DEFINITION. What a good state is (State.Inv), and the terms the statements use: who owns a storage bit, which code a
command ends with (R204), and which parts of the state two states share. -/

namespace Sys2Proof.Machine

/-- A buffer as R37 has it: positive dimensions that fit 32-bit signed integers (R9), L = ceil(W*H*bpp/8) (R10), L at
most P_LMAX (R180), and storage in canonical form with every listed index below L (R38). -/
abbrev Buffer.wf (p : Params) (b : Buffer) : Prop :=
  (1 ≤ b.width ∧ b.width < 2 ^ 31) ∧ (1 ≤ b.height ∧ b.height < 2 ^ 31)
    ∧ b.len = storageLength b.mode b.width b.height ∧ b.len ≤ p.pLMax
    ∧ Memory.wf b.mem ∧ ∀ c ∈ b.mem, c.1 < b.len

/-- The invariant of PPAC: P_LMAX is positive (R9), each configured slot is a well-formed buffer, ERRSEEN is set whenever
CODE is not OK (R24), and the result registers' reserved bits read 0 (R30, R31, R33, R34). -/
abbrev State.Inv (s : State) : Prop :=
  0 < s.params.pLMax ∧ (∀ b ∈ s.slot0, b.wf s.params) ∧ (∀ b ∈ s.slot1, b.wf s.params)
    ∧ (s.code ≠ .ok → s.errSeen = true)
    ∧ s.resVal &&& 0xFFFFF000#32 = 0 ∧ s.resRgb &&& 0xFF000000#32 = 0
    ∧ s.resInfo &&& 0xFF0000F8#32 = 0 ∧ s.resByte &&& 0xFFFFFF00#32 = 0

/-- A packed value of a mode: 4 bits for Gray4, 12 for Rgb444 (R113). -/
abbrev valueFits (mode : Mode) (v : Packed) : Prop := mode = .gray4 → v.toNat < 16

/-- The bits of storage byte k that belong to pixel (x, y): the masks of R106 at bytes idx0 and idx0 + 1, and no bit of
any other byte. -/
def maskAt (mode : Mode) (width x y k : Nat) : Byte :=
  if k = addressOf mode width x y then (pixelMasks mode (phaseOf x)).1
  else if k = addressOf mode width x y + 1 then (pixelMasks mode (phaseOf x)).2
  else 0

/-- What a write of v at pixel (x, y) puts into storage byte k: the lanes of R107. -/
def laneAt (mode : Mode) (width x y k : Nat) (v : Packed) : Byte :=
  if k = addressOf mode width x y then (alignLanes mode (phaseOf x) v).1
  else if k = addressOf mode width x y + 1 then (alignLanes mode (phaseOf x) v).2
  else 0

/-- Pixel (x, y) owns bit j of storage byte k (R106). -/
abbrev ownsBit (mode : Mode) (width x y k j : Nat) : Prop := (maskAt mode width x y k).getLsbD j = true

/-- The pixel (i, r) comes after (i', r') in row-major order (R147, R168). -/
abbrev laterPixel (i r i' r' : Nat) : Prop := r' < r ∨ (r = r' ∧ i' < i)

/-- (x, y) is a pixel of the buffer. -/
abbrev Buffer.inRange (b : Buffer) (x y : Nat) : Prop := x < b.width ∧ y < b.height

/-- Two buffers of one lifetime: mode, W, H and L are the same (R38). -/
abbrev Buffer.sameShape (b b' : Buffer) : Prop :=
  b'.mode = b.mode ∧ b'.width = b.width ∧ b'.height = b.height ∧ b'.len = b.len

/-- RES_ADDR and RES_INFO as R32 and R33 give them for pixel (x, y): the byte index of R101 to R103, where it fits 32
bits, and phase, byte count and masks of R106 packed as R33 says. -/
abbrev AccessRecorded (b : Buffer) (x y : Nat) (addr info : Word) : Prop :=
  (∀ idx0, idx0 = (match b.mode with
      | .gray4 => (y * b.width) / 2 + x / 2
      | .rgb444 => if x % 2 = 0 then ((x + y * b.width) * 3) / 2 else ((x - 1 + y * b.width) * 3) / 2 + 1) →
    idx0 < 2 ^ 32 → addr.toNat = idx0) ∧
  info = (match b.mode with
    | .gray4 => if x % 2 = 0 then 0x0000F002#32 else 0x00000F03#32
    | .rgb444 => if x % 2 = 0 then 0x00F0FF04#32 else 0x00FF0F05#32)

/-- The packed value of pixel (x, y), computed from its storage bytes by arithmetic on numbers (R108). -/
def pixelNumber (b : Buffer) (x y : Nat) : Nat :=
  let b0 := (b.byte (addressOf b.mode b.width x y)).toNat
  let b1 := (b.byte (addressOf b.mode b.width x y + 1)).toNat
  match b.mode with
  | .gray4 => if x % 2 = 0 then b0 / 16 else b0 % 16
  | .rgb444 => if x % 2 = 0 then b0 * 16 + b1 / 16 else b0 % 16 * 256 + b1

/-- The colour word RES_RGB of a packed value, computed by arithmetic on numbers (R31, R110, R111). -/
def colourNumber (mode : Mode) (v : Nat) : Nat :=
  match mode with
  | .gray4 => v * 16 * 65536 + v * 16 * 256 + v * 16
  | .rgb444 => v / 256 * 255 / 15 * 65536 + v / 16 % 16 * 255 / 15 * 256 + v % 16 * 255 / 15

/-- b' is b with the number v stored at pixel (x, y), by arithmetic on numbers (R107, R109): the pixel's bits take v, the
neighbour's nibble and every other byte stay. -/
abbrev PixelStored (b b' : Buffer) (x y v : Nat) : Prop :=
  let a := addressOf b.mode b.width x y
  let o0 := (b.byte a).toNat
  let o1 := (b.byte (a + 1)).toNat
  b.sameShape b' ∧
  (match b.mode with
    | .gray4 =>
      (b'.byte a).toNat = (if x % 2 = 0 then v * 16 + o0 % 16 else o0 / 16 * 16 + v) ∧
      ∀ k, k ≠ a → b'.byte k = b.byte k
    | .rgb444 =>
      (b'.byte a).toNat = (if x % 2 = 0 then v / 16 else o0 / 16 * 16 + v / 256) ∧
      (b'.byte (a + 1)).toNat = (if x % 2 = 0 then v % 16 * 16 + o1 % 16 else v % 256) ∧
      ∀ k, k ≠ a → k ≠ a + 1 → b'.byte k = b.byte k)

/-- Byte i of storage after FILL with the number v (R140, R141, R143). -/
def fillNumber (mode : Mode) (v i : Nat) : Nat :=
  match mode with
  | .gray4 => v * 16 + v
  | .rgb444 => if i % 3 = 0 then v / 16 else if i % 3 = 1 then v % 16 * 16 + v / 256 else v % 256

/-- The number a command reads in OPV for a mode (R76). -/
def operandNumber (s : State) (mode : Mode) : Nat :=
  match mode with
  | .gray4 => s.opv.toNat % 16
  | .rgb444 => s.opv.toNat % 4096

/-- (i, r) is a pixel of the rectangle the operand registers give: x <= i < x + w and y <= r < y + h, on exact integers
(R147). A w or h that is not positive gives the empty rectangle. -/
abbrev State.inRectangle (s : State) (i r : Nat) : Prop :=
  (s.operandX ≤ i ∧ (i : Int) < s.operandX + s.operandW) ∧ (s.operandY ≤ r ∧ (r : Int) < s.operandY + s.operandH)

/-- Load bytes into a slot's storage from index i up, one RAWWR each (R183). -/
def adoptBytes (sel : Slot) (i : Nat) : List Byte → State → Result
  | [], s => .next s
  | v :: vs, s =>
    match exec (.rawwr sel) { s with opi := BitVec.ofNat 32 i, opb := v.setWidth 32 } with
    | .next t => adoptBytes sel (i + 1) vs t
    | r => r

/-- The code a command ends with: the first of the conditions of R204 that holds, in R204's order, or OK. -/
def endCode (i : Instr) (s : State) : StatusCode :=
  match i with
  | .invert _ => .notImplemented
  | .config _ mode =>
    if s.operandW < 1 ∨ s.operandH < 1
        ∨ storageLength mode s.operandW.toNat s.operandH.toNat > s.params.pLMax then .badConfig
    else .ok
  | .addr sel | .getpx sel | .setpx sel =>
    match s.slot sel with
    | none => .notConfigured
    | some b =>
      if s.operandX < 0 ∨ s.operandX ≥ b.width ∨ s.operandY < 0 ∨ s.operandY ≥ b.height then .coordFault else .ok
  | .fill sel =>
    match s.slot sel with
    | none => .notConfigured
    | some _ => .ok
  | .fillrect sel =>
    match s.slot sel with
    | none => .notConfigured
    | some b =>
      if s.operandX < 0 ∨ s.operandY < 0 ∨ s.operandX + s.operandW > b.width
          ∨ s.operandY + s.operandH > b.height then .rangeError
      else .ok
  | .blit sel =>
    match s.slot sel, s.slot (otherSlot sel) with
    | some d, some src =>
      if d.mode ≠ src.mode then .modeMismatch
      else if s.operandX < 0 ∨ s.operandY < 0 ∨ s.operandX + src.width > d.width
          ∨ s.operandY + src.height > d.height then .coordFault
      else .ok
    | _, _ => .notConfigured
  | .rawrd sel | .rawwr sel =>
    match s.slot sel with
    | none => .notConfigured
    | some b => if s.operandI ≥ b.len then .indexFault else .ok

/-- What is the host's or fixed: the parameters, the host program, the position in it and what the host last read. -/
abbrev SameHostSide (s t : State) : Prop :=
  t.params = s.params ∧ t.program = s.program ∧ t.index = s.index ∧ t.readData = s.readData

/-- CMD and the seven operand registers are the same. -/
abbrev SameOperands (s t : State) : Prop :=
  t.cmd = s.cmd ∧ t.opx = s.opx ∧ t.opy = s.opy ∧ t.opw = s.opw ∧ t.oph = s.oph ∧ t.opv = s.opv
    ∧ t.opi = s.opi ∧ t.opb = s.opb

/-- The five result registers are the same (R45). -/
abbrev SameResults (s t : State) : Prop :=
  t.resVal = s.resVal ∧ t.resRgb = s.resRgb ∧ t.resAddr = s.resAddr ∧ t.resInfo = s.resInfo ∧ t.resByte = s.resByte

/-- The two slots are the same, fields and storage. -/
def SameSlots (s t : State) : Prop := ∀ k, t.slot k = s.slot k

end Sys2Proof.Machine
end

