-- ==== Sys2Proof/Certificates/Slice0/Obligations.lean ====
section
/-! DEFINITION. The statements for the provers. Each docstring names the rules of spec/ the statement formalises. -/

open Sys2Proof Sys2Proof.Machine

/-! ## Reset, the invariant, the step -/

/-- R230, R22, R24, R36: after reset, with any parameters, every register of the map reads 0x00000000, both slots are
not valid, STATUS is OK with ERRSEEN = 0, and the host's index is 0 (R21). State.reset is such a state. -/
def Obligations.ResetGivesEveryRegisterItsResetValue : Prop :=
  (∃ p, State.reset = State.resetWith p) ∧
  ∀ p, (∀ r, (State.resetWith p).readReg r = 0x00000000#32) ∧ (∀ k, (State.resetWith p).slot k = none) ∧
    (State.resetWith p).code = .ok ∧ (State.resetWith p).errSeen = false ∧ (State.resetWith p).index = 0

/-- R230: a platform reset gives every register its reset value, makes both slots not valid and lets no state of PPAC
survive; reset is the only event that clears ERRSEEN. That a reset stands as an entry of the host's list, counts as one
and leaves the list alone is the model's choice (log 3). -/
def Obligations.PlatformResetClearsAllAndAloneClearsErrseen : Prop :=
  (∀ s, s.currentAction = some .platformReset →
    ∃ t, step s = .next t ∧ (∀ r, t.readReg r = 0x00000000#32) ∧ (∀ k, t.slot k = none) ∧
      t.code = .ok ∧ t.errSeen = false ∧ t.index = s.index + 1 ∧ t.program = s.program) ∧
  (∀ s s', s.currentAction = some .platformReset → SameHostSide s s' → step s = step s') ∧
  (∀ s t, step s = .next t → s.errSeen = true → t.errSeen = false → s.currentAction = some .platformReset)

/-- The invariant holds after reset, with any positive P_LMAX (R9, R230). -/
def Obligations.ResetStateMeetsTheInvariant : Prop :=
  State.reset.Inv ∧ ∀ p : Params, 0 < p.pLMax → (State.resetWith p).Inv

/-- R24, R30, R31, R33, R34, R37, R38: from every state that meets the invariant a step gives a state that meets it:
slots stay well-formed buffers with canonical storage of exactly L bytes, a code other than OK has ERRSEEN set, and the
result registers' reserved bits read 0. -/
def Obligations.EveryStepKeepsTheInvariant : Prop := ∀ s t, s.Inv → step s = .next t → t.Inv

/-- R51: no command ever forms a storage index outside 0 .. L - 1. The model stops with the fault storageIndex at such
an index (log 9), and from a state that meets the invariant no step stops with a fault. -/
def Obligations.NoStepFormsAnIndexOutsideStorage : Prop := ∀ s f, s.Inv → step s ≠ .fault f

/-- R23, R57, R73: when the host's action is a write of a word to CMD, the step runs that word, the host's index moved by
one: a legal word is the command it encodes, run at the state with the word in CMD; every other word only goes to CMD
and raises ILLEGAL. The same for a legal word placed by withFetchWord. -/
def Obligations.StepRunsTheDecodedCommand : Prop :=
  (∀ (s : State) w, s.currentAction = some (.wr s.params.pBase 32 w) →
    step s = runCommand w { s with index := s.index + 1 } ∧
    (∀ i, decode w = .ok i → step s = exec i { s with index := s.index + 1, cmd := w }) ∧
    ((∀ i, decode w ≠ .ok i) →
      step s = .next { s with index := s.index + 1, cmd := w, code := .illegal, errSeen := true })) ∧
  (∀ (s : State) i w, decode w = .ok i →
    step (s.withFetchWord 32 w.toNat) =
      exec i { s.withFetchWord 32 w.toNat with index := s.index + 1, cmd := w })

/-- R21: the index starts at 0 and advances by exactly 1 per host action, a register read or a register write, whatever
it does; the host program never changes. -/
def Obligations.EachHostActionAdvancesTheIndexByOne : Prop :=
  State.reset.index = 0 ∧
  ∀ s t a, s.currentAction = some a → a ≠ .platformReset → step s = .next t →
    t.index = s.index + 1 ∧ t.program = s.program

/-- The model's choice (log 1, from R213): when the host program is over, a step changes nothing. -/
def Obligations.TheEndedProgramHoldsTheState : Prop := ∀ s, s.program.length ≤ s.index → step s = .next s

/-! ## Encoding -/

/-- R73, R77: a word is a command exactly when its opcode is 0x01 to 0x0A, its bits 31:10 are 0, and its bit 9 is 0 or
the opcode is CONFIG's; it is then the command of its opcode, slot and mode bits. Every other word raises ILLEGAL and
changes nothing but STATUS, the word itself being kept in CMD (R23). -/
def Obligations.LegalWordsDecodeAndOthersRaiseIllegal : Prop :=
  ∀ (w : Word) (s : State),
    if (1 ≤ w.toNat % 256 ∧ w.toNat % 256 ≤ 10) ∧ w.toNat / 1024 = 0 ∧
        (w.toNat / 512 % 2 = 0 ∨ w.toNat % 256 = 1) then
      ∃ i, decode w = .ok i ∧ runCommand w s = exec i { s with cmd := w } ∧ opcodeOf i = w.toNat % 256 ∧
        slotNumber (selOf i) = w.toNat / 256 % 2 ∧ modeBitOf i = w.toNat / 512 % 2
    else runCommand w s = .next { s with cmd := w, code := .illegal, errSeen := true }

/-- R71, R73: decode and encode agree in both directions: a word decodes to a command exactly when it is that command's
word, so each legal word has one meaning and no bit of an encoding is dropped. -/
def Obligations.AWordDecodesToACommandIffItIsItsEncoding : Prop :=
  ∀ (w : Word) (i : Instr), decode w = .ok i ↔ w = encode i

/-- R79: the ten example words stand for the commands the table gives beside them. -/
def Obligations.TheExampleWordsDecode : Prop :=
  ∀ p ∈ [(0x00000001#32, Instr.config .s0 .gray4), (0x00000301#32, .config .s1 .rgb444), (0x00000003#32, .getpx .s0),
      (0x00000104#32, .setpx .s1), (0x00000005#32, .fill .s0), (0x00000106#32, .fillrect .s1),
      (0x00000007#32, .invert .s0), (0x00000008#32, .blit .s0), (0x00000109#32, .rawrd .s1),
      (0x0000000A#32, .rawwr .s0)],
    decode p.1 = .ok p.2 ∧ encode p.2 = p.1

/-! ## The host's port -/

/-- R56: a host access inside the register space has a step exactly when it is 32 bits wide at an offset that is a
multiple of 4. A narrower or wider access, or one at another offset, is refused. By which name, where both are wrong,
is the model's choice (log 15): the width is looked at first. -/
def Obligations.OnlyAlignedWordAccessesHaveAStep : Prop :=
  ∀ (s : State) (offset width : Nat) (a : HostAction), offset < 0x100 → s.currentAction = some a →
    (a = .rd (s.params.pBase + offset) width ∨ ∃ w, a = .wr (s.params.pBase + offset) width w) →
    (width ≠ 32 → step s = .refused .accessWidth) ∧
    (width = 32 → offset % 4 ≠ 0 → step s = .refused .misalignedAccess) ∧
    (width = 32 → offset % 4 = 0 → ∀ r, step s ≠ .refused r)

/-- The model's reading of R50 (log 6): an access, of any width, at a platform address outside the 0x100 bytes at P_BASE
is no access to PPAC and is refused. That the width is looked at before the space is the model's choice (log 15). -/
def Obligations.AccessesOutsideTheSpaceAreRefused : Prop :=
  ∀ (s : State) (address width : Nat) (a : HostAction), s.currentAction = some a →
    (a = .rd address width ∨ ∃ w, a = .wr address width w) →
    (address < s.params.pBase ∨ s.params.pBase + 0x100 ≤ address) →
    (width = 32 → step s = .refused .outsideRegisterSpace) ∧ (width ≠ 32 → step s = .refused .accessWidth)

/-- R22, R23, R25 to R34, R57, R60: a read of the register at each offset of the map returns the value that register
holds, and has no side effect on any register or storage. What STATUS and the slots' registers read as is stated by
StatusReadsItsCodeAndStickyBit and SlotRegistersShowTheSlotFields. That the value stands in the field readData is the
model's choice (log 7). -/
def Obligations.ReadsReturnTheRegisterAndChangeNothing : Prop :=
  ∀ (s : State) (offset : Nat) (value : Word),
    (offset, value) ∈ [(0x00, s.cmd), (0x04, s.readReg .status), (0x08, s.opx), (0x0C, s.opy), (0x10, s.opw),
      (0x14, s.oph), (0x18, s.opv), (0x1C, s.opi), (0x20, s.opb), (0x24, s.resVal), (0x28, s.resRgb),
      (0x2C, s.resAddr), (0x30, s.resInfo), (0x34, s.resByte), (0x40, s.readReg .s0Cfg), (0x44, s.readReg .s0W),
      (0x48, s.readReg .s0H), (0x4C, s.readReg .s0Len), (0x50, s.readReg .s1Cfg), (0x54, s.readReg .s1W),
      (0x58, s.readReg .s1H), (0x5C, s.readReg .s1Len)] →
    s.currentAction = some (.rd (s.params.pBase + offset) 32) →
    step s = .next { s with index := s.index + 1, readData := some value }

/-- R40: a read of a reserved offset (0x38, 0x3C, or 0x60 and up) returns 0x00000000 and a write to one changes
nothing; neither has a side effect. That the value read stands in the field readData is the model's choice (log 7). -/
def Obligations.ReservedOffsetsReadZeroAndIgnoreWrites : Prop :=
  ∀ (s : State) (offset : Nat), (offset = 0x38 ∨ offset = 0x3C ∨ 0x60 ≤ offset) → offset < 0x100 → offset % 4 = 0 →
    (s.currentAction = some (.rd (s.params.pBase + offset) 32) →
      step s = .next { s with index := s.index + 1, readData := some 0x00000000#32 }) ∧
    (∀ w, s.currentAction = some (.wr (s.params.pBase + offset) 32 w) → step s = .next { s with index := s.index + 1 })

/-- R41: a host write to a read-only register (STATUS at 0x04, RES_VAL to RES_BYTE at 0x24 to 0x34, the Sn registers at
0x40 to 0x5C) changes nothing and has no side effect. -/
def Obligations.ReadOnlyRegistersIgnoreWrites : Prop :=
  ∀ (s : State) (w : Word), ∀ offset ∈ [0x04, 0x24, 0x28, 0x2C, 0x30, 0x34, 0x40, 0x44, 0x48, 0x4C, 0x50, 0x54, 0x58,
      0x5C],
    s.currentAction = some (.wr (s.params.pBase + offset) 32 w) → step s = .next { s with index := s.index + 1 }

/-- R25 to R29, R57: a host write to an operand register, at the offset the map gives it (R22), stores every bit and
changes nothing else. -/
def Obligations.OperandWritesStoreEveryBitAndNothingElse : Prop :=
  ∀ (s : State) (offset : Nat) (w : Word), s.currentAction = some (.wr (s.params.pBase + offset) 32 w) →
    (offset = 0x08 → step s = .next { s with index := s.index + 1, opx := w }) ∧
    (offset = 0x0C → step s = .next { s with index := s.index + 1, opy := w }) ∧
    (offset = 0x10 → step s = .next { s with index := s.index + 1, opw := w }) ∧
    (offset = 0x14 → step s = .next { s with index := s.index + 1, oph := w }) ∧
    (offset = 0x18 → step s = .next { s with index := s.index + 1, opv := w }) ∧
    (offset = 0x1C → step s = .next { s with index := s.index + 1, opi := w }) ∧
    (offset = 0x20 → step s = .next { s with index := s.index + 1, opb := w })

/-- R57: only a write to CMD has side effects beyond the register written. A step whose action is a register access
other than a CMD write leaves CMD, STATUS, the result registers and both slots as they were. -/
def Obligations.OnlyCmdWritesActOnResultsAndSlots : Prop :=
  ∀ (s t : State) (a : HostAction), s.currentAction = some a → step s = .next t → a ≠ .platformReset →
    (∀ w, a ≠ .wr s.params.pBase 32 w) →
    t.cmd = s.cmd ∧ t.code = s.code ∧ t.errSeen = s.errSeen ∧ SameResults s t ∧ SameSlots s t

/-- R76: how a command reads the operand registers: OPX, OPY, OPW and OPH as two's-complement integers, OPI unsigned,
the low 4 or 12 bits of OPV by the slot's mode, the low 8 bits of OPB. -/
def Obligations.OperandsAreReadAsTheRuleSays : Prop :=
  ∀ s : State,
    (s.operandX = if s.opx.toNat < 2 ^ 31 then (s.opx.toNat : Int) else s.opx.toNat - 2 ^ 32) ∧
    (s.operandY = if s.opy.toNat < 2 ^ 31 then (s.opy.toNat : Int) else s.opy.toNat - 2 ^ 32) ∧
    (s.operandW = if s.opw.toNat < 2 ^ 31 then (s.opw.toNat : Int) else s.opw.toNat - 2 ^ 32) ∧
    (s.operandH = if s.oph.toNat < 2 ^ 31 then (s.oph.toNat : Int) else s.oph.toNat - 2 ^ 32) ∧
    (s.operandV .gray4).toNat = s.opv.toNat % 16 ∧ (s.operandV .rgb444).toNat = s.opv.toNat % 4096 ∧
    s.operandI = s.opi.toNat ∧ s.operandB.toNat = s.opb.toNat % 256

/-- R24, R200: STATUS holds the code's number in bits 3:0 and ERRSEEN in bit 8, and every other bit reads 0; the codes
are numbered 0x0 to 0x8. -/
def Obligations.StatusReadsItsCodeAndStickyBit : Prop :=
  (∀ s : State, (s.readReg .status).toNat = codeNumber s.code + if s.errSeen then 256 else 0) ∧
  codeNumber .ok = 0 ∧ codeNumber .rangeError = 1 ∧ codeNumber .notImplemented = 2 ∧ codeNumber .coordFault = 3 ∧
  codeNumber .indexFault = 4 ∧ codeNumber .notConfigured = 5 ∧ codeNumber .badConfig = 6 ∧
  codeNumber .modeMismatch = 7 ∧ codeNumber .illegal = 8

/-- R35, R36: Sn_CFG shows VALID in bit 31 and MODE in bit 0, and Sn_W, Sn_H and Sn_LEN show the slot's numbers; all
read 0 while the slot is not valid. Sn_LEN is stated for a length that fits 32 bits (log 5). -/
def Obligations.SlotRegistersShowTheSlotFields : Prop :=
  ∀ (s : State) (sel : Slot) (cfg w h len : RegName), s.Inv →
    (sel = .s0 ∧ cfg = .s0Cfg ∧ w = .s0W ∧ h = .s0H ∧ len = .s0Len ∨
      sel = .s1 ∧ cfg = .s1Cfg ∧ w = .s1W ∧ h = .s1H ∧ len = .s1Len) →
    (s.slot sel = none → s.readReg cfg = 0#32 ∧ s.readReg w = 0#32 ∧ s.readReg h = 0#32 ∧ s.readReg len = 0#32) ∧
    (∀ b, s.slot sel = some b →
      (s.readReg cfg).toNat = 2 ^ 31 + (if b.mode = .rgb444 then 1 else 0) ∧ (s.readReg w).toNat = b.width ∧
      (s.readReg h).toNat = b.height ∧ (b.len < 2 ^ 32 → (s.readReg len).toNat = b.len))

/-! ## The address calculator and the pixel units -/

/-- R104: every byte an in-range pixel touches lies inside a storage of ceil(W * H * bpp / 8) bytes. -/
def Obligations.InRangePixelsTouchOnlyStorageBytes : Prop :=
  ∀ (mode : Mode) (w h x y : Nat), x < w → y < h →
    addressOf mode w x y + bytesTouched mode - 1 ≤ (w * h * bitsPerPixel mode + 7) / 8 - 1

/-- R105: with an even width every storage bit belongs to exactly one in-range pixel; with an odd width and a height of
2 or more two distinct in-range pixels share a bit. -/
def Obligations.EvenWidthsShareNoNibbleAndOddWidthsDo : Prop :=
  ∀ (mode : Mode) (w h : Nat), 1 ≤ w → 1 ≤ h →
    (w % 2 = 0 → ∀ k j, k < storageLength mode w h → j < 8 →
      ∃! q : Nat × Nat, (q.1 < w ∧ q.2 < h) ∧ ownsBit mode w q.1 q.2 k j) ∧
    (w % 2 = 1 → 2 ≤ h → ∃ x y x' y' k j, (x < w ∧ y < h) ∧ (x' < w ∧ y' < h) ∧ (x, y) ≠ (x', y') ∧
      ownsBit mode w x y k j ∧ ownsBit mode w x' y' k j)

/-- R114: a pixel written with a value of the slot's width reads back as that value, at every in-range coordinate and
every width, odd widths too. -/
def Obligations.AWrittenPixelReadsBackItsValue : Prop :=
  ∀ (p : Params) (b : Buffer) (x y : Nat) (v : Packed), b.wf p → b.inRange x y → valueFits b.mode v →
    ∃ b', b.writePixel x y v = some b' ∧ b'.readPixel x y = some v

/-- R115: with an even width, writing one pixel leaves every other in-range pixel's value unchanged. With an odd width
that fails for the aliased pairs of R105: for two distinct pixels that share a bit, some value written at the one
changes what the other reads. -/
def Obligations.EvenWidthWritesKeepEveryOtherPixel : Prop :=
  ∀ (p : Params) (b : Buffer) (x y x' y' : Nat), b.wf p → b.inRange x y → b.inRange x' y' → (x', y') ≠ (x, y) →
    (b.width % 2 = 0 → ∀ v b', b.writePixel x y v = some b' → b'.readPixel x' y' = b.readPixel x' y') ∧
    (b.width % 2 = 1 → 2 ≤ b.height →
      (∃ k j, ownsBit b.mode b.width x y k j ∧ ownsBit b.mode b.width x' y' k j) →
      ∃ v b', valueFits b.mode v ∧ b.writePixel x y v = some b' ∧ b'.readPixel x' y' ≠ b.readPixel x' y')

/-- R110, R111: a Gray4 value v expands to three channels of 16 * v; each Rgb444 channel c expands to exactly 17 * c. -/
def Obligations.GrayExpandsBySixteenAndRgbBySeventeen : Prop :=
  ∀ v : Packed,
    (v.toNat < 16 → (expandColour .gray4 v).1.toNat = 16 * v.toNat ∧ (expandColour .gray4 v).2.1.toNat = 16 * v.toNat ∧
      (expandColour .gray4 v).2.2.toNat = 16 * v.toNat) ∧
    (expandColour .rgb444 v).1.toNat = 17 * (v.toNat / 256) ∧
    (expandColour .rgb444 v).2.1.toNat = 17 * (v.toNat / 16 % 16) ∧
    (expandColour .rgb444 v).2.2.toNat = 17 * (v.toNat % 16)

/-! ## Pixel access commands -/

/-- R120, R161, R232: on a slot that is not valid the eight commands that need it raise NOT_CONFIGURED and change
nothing but STATUS, BLIT also when its source is not valid; CONFIG works on a slot in any state, and INVERT and an
illegal word raise their own codes in any state. -/
def Obligations.UnconfiguredSlotsRaiseNotConfigured : Prop :=
  ∀ (s : State) (sel : Slot),
    (s.slot sel = none →
      ∀ i ∈ [Instr.addr sel, .getpx sel, .setpx sel, .fill sel, .fillrect sel, .blit sel, .blit (otherSlot sel),
          .rawrd sel, .rawwr sel],
        exec i s = .next { s with code := .notConfigured, errSeen := true }) ∧
    (∀ mode, 1 ≤ s.operandW → 1 ≤ s.operandH →
      storageLength mode s.operandW.toNat s.operandH.toNat ≤ s.params.pLMax →
      ∃ t, exec (.config sel mode) s = .next t ∧ t.code = .ok) ∧
    exec (.invert sel) s = .next { s with code := .notImplemented, errSeen := true } ∧
    (∀ w, (∀ i, decode w ≠ .ok i) → ∃ t, runCommand w s = .next t ∧ t.code = .illegal)

/-- R121: on a valid slot, ADDR, GETPX and SETPX with a coordinate that is not inside the buffer raise COORD_FAULT and
change nothing but STATUS. -/
def Obligations.OutOfRangeCoordinatesRaiseCoordFault : Prop :=
  ∀ (s : State) (sel : Slot) (b : Buffer), s.slot sel = some b →
    ¬((0 ≤ s.operandX ∧ s.operandX < b.width) ∧ (0 ≤ s.operandY ∧ s.operandY < b.height)) →
    ∀ i ∈ [Instr.addr sel, .getpx sel, .setpx sel],
      exec i s = .next { s with code := .coordFault, errSeen := true }

/-- R122, with R101 to R103, R106, R32 and R33: on a valid slot and an in-range coordinate ADDR completes, RES_ADDR
holds the byte index and RES_INFO the phase, byte count and masks; nothing else but STATUS.CODE changes. -/
def Obligations.AddrReportsTheAddressAndMasks : Prop :=
  ∀ (s : State) (sel : Slot) (b : Buffer) (x y : Nat), s.slot sel = some b → s.operandX = x → s.operandY = y →
    b.inRange x y →
    ∃ addr info, exec (.addr sel) s = .next { s with code := .ok, resAddr := addr, resInfo := info } ∧
      AccessRecorded b x y addr info

/-- R123, with R108 and R110: GETPX completes with the pixel's packed value in RES_VAL, its expanded colour in RES_RGB,
and RES_ADDR and RES_INFO; storage and every other register but STATUS.CODE are unchanged. -/
def Obligations.GetpxReadsAndExpandsThePixel : Prop :=
  ∀ (s : State) (sel : Slot) (b : Buffer) (x y : Nat), s.Inv → s.slot sel = some b → s.operandX = x →
    s.operandY = y → b.inRange x y →
    ∃ value rgb addr info,
      exec (.getpx sel) s =
        .next { s with code := .ok, resVal := value, resRgb := rgb, resAddr := addr, resInfo := info } ∧
      value.toNat = pixelNumber b x y ∧ rgb.toNat = colourNumber b.mode (pixelNumber b x y) ∧
      AccessRecorded b x y addr info

/-- R124, with R107 and R109: SETPX completes; the pixel's bits take the low bits of OPV, the neighbour's nibble and
every byte outside the pixel's one or two bytes stay, and RES_ADDR and RES_INFO are written; nothing else but
STATUS.CODE changes. -/
def Obligations.SetpxWritesOnlyThePixel : Prop :=
  ∀ (s : State) (sel : Slot) (b : Buffer) (x y : Nat), s.Inv → s.slot sel = some b → s.operandX = x →
    s.operandY = y → b.inRange x y →
    ∃ b' addr info,
      exec (.setpx sel) s = .next { s.setSlot sel b' with code := .ok, resAddr := addr, resInfo := info } ∧
      PixelStored b b' x y (operandNumber s b.mode) ∧ AccessRecorded b x y addr info

/-- R114 at the host's level: GETPX after a SETPX that ended OK, with the operands left as they are, ends OK and returns
the value SETPX was given. -/
def Obligations.SetpxThenGetpxReturnsTheOperand : Prop :=
  ∀ (s t : State) (sel : Slot) (b : Buffer), s.Inv → s.slot sel = some b → exec (.setpx sel) s = .next t →
    t.code = .ok → ∃ u, exec (.getpx sel) t = .next u ∧ u.code = .ok ∧ u.resVal.toNat = operandNumber s b.mode

/-- R125: INVERT always raises NOT_IMPLEMENTED, whatever the slot and the state, and changes nothing but STATUS. -/
def Obligations.InvertAlwaysRaisesNotImplemented : Prop :=
  ∀ (s : State) (sel : Slot), exec (.invert sel) s = .next { s with code := .notImplemented, errSeen := true }

/-! ## Fill -/

/-- R143, R144, with R140 to R142: FILL on a valid slot completes, and every storage byte i < L is byte i mod u of the
fill pattern; no other byte, field or register but STATUS.CODE changes. On a slot that is not valid it raises
NOT_CONFIGURED and changes nothing but STATUS. -/
def Obligations.FillStoresThePatternAtEveryByte : Prop :=
  ∀ (s : State) (sel : Slot), s.Inv →
    (s.slot sel = none → exec (.fill sel) s = .next { s with code := .notConfigured, errSeen := true }) ∧
    ∀ b, s.slot sel = some b →
      ∃ b', exec (.fill sel) s = .next { s.setSlot sel b' with code := .ok } ∧ b.sameShape b' ∧
        (∀ i, i < b.len → (b'.byte i).toNat = fillNumber b.mode (operandNumber s b.mode) i) ∧
        (∀ i, b.len ≤ i → b'.byte i = b.byte i)

/-- R145: after FILL every in-range pixel reads the value in Gray4, and in Rgb444 when W is even or H = 1; in Rgb444 with
W odd and H at least 2, pixel (0, 1) reads the value rotated by one nibble (0x123 reads 0x312). -/
def Obligations.FillIsUniformUnlessRgbWithOddWidth : Prop :=
  ∀ (s t : State) (sel : Slot) (b b' : Buffer), s.Inv → s.slot sel = some b → exec (.fill sel) s = .next t →
    t.slot sel = some b' →
    (b.mode = .gray4 ∨ b.width % 2 = 0 ∨ b.height = 1 →
      ∀ x y, b.inRange x y → b'.readPixel x y = some (s.operandV b.mode)) ∧
    (b.mode = .rgb444 → b.width % 2 = 1 → 2 ≤ b.height →
      ∃ v, b'.readPixel 0 1 = some v ∧
        v.toNat = (s.operandV .rgb444).toNat % 16 * 256 + (s.operandV .rgb444).toNat / 16)

/-- R146: FILLRECT on a valid slot with x < 0, y < 0, x + w > W or y + h > H, the sums exact, raises RANGE_ERROR and
leaves everything but STATUS unchanged. -/
def Obligations.RectanglesOutsideTheBufferRaiseRangeError : Prop :=
  ∀ (s : State) (sel : Slot) (b : Buffer), s.slot sel = some b →
    (s.operandX < 0 ∨ s.operandY < 0 ∨ s.operandX + s.operandW > b.width ∨ s.operandY + s.operandH > b.height) →
    exec (.fillrect sel) s = .next { s with code := .rangeError, errSeen := true }

/-- R147, R148: FILLRECT on a valid slot and a rectangle inside the buffer completes. A storage bit that no pixel of the
rectangle owns is unchanged; a bit that some pixel owns holds the bit that the row-major last such pixel's write puts
there. Nothing else but STATUS.CODE changes. -/
def Obligations.FillrectLeavesTheRowMajorLastWrite : Prop :=
  ∀ (s : State) (sel : Slot) (b : Buffer), s.Inv → s.slot sel = some b → 0 ≤ s.operandX → 0 ≤ s.operandY →
    s.operandX + s.operandW ≤ b.width → s.operandY + s.operandH ≤ b.height →
    ∃ b', exec (.fillrect sel) s = .next { s.setSlot sel b' with code := .ok } ∧ b.sameShape b' ∧
      ∀ k j, j < 8 →
        ((∀ i r, s.inRectangle i r → ¬ownsBit b.mode b.width i r k j) →
          (b'.byte k).getLsbD j = (b.byte k).getLsbD j) ∧
        (∀ i r, s.inRectangle i r → ownsBit b.mode b.width i r k j →
          (∀ i' r', s.inRectangle i' r' → laterPixel i' r' i r → ¬ownsBit b.mode b.width i' r' k j) →
          (b'.byte k).getLsbD j = (laneAt b.mode b.width i r k (s.operandV b.mode)).getLsbD j)

/-- R148 (its corner cases; 90_conflicts.md C6): a rectangle whose w or h is not positive and that passes the check
writes nothing and ends OK. -/
def Obligations.EmptyRectanglesWriteNothing : Prop :=
  ∀ (s : State) (sel : Slot) (b : Buffer), s.slot sel = some b → 0 ≤ s.operandX → 0 ≤ s.operandY →
    s.operandX + s.operandW ≤ b.width → s.operandY + s.operandH ≤ b.height →
    (s.operandW ≤ 0 ∨ s.operandH ≤ 0) → exec (.fillrect sel) s = .next { s with code := .ok }

/-- R150: after FILLRECT ends OK on a slot of even width, every pixel of the rectangle reads the value, every other
in-range pixel reads what it did, and every storage bit that no in-range pixel owns is unchanged. -/
def Obligations.FillrectOnEvenWidthSetsExactlyTheRectangle : Prop :=
  ∀ (s t : State) (sel : Slot) (b b' : Buffer), s.Inv → s.slot sel = some b → b.width % 2 = 0 →
    exec (.fillrect sel) s = .next t → t.code = .ok → t.slot sel = some b' →
    (∀ i r : Nat, b.inRange i r →
      (s.inRectangle i r → b'.readPixel i r = some (s.operandV b.mode)) ∧
      (¬s.inRectangle i r → b'.readPixel i r = b.readPixel i r)) ∧
    (∀ k j, (∀ i r, b.inRange i r → ¬ownsBit b.mode b.width i r k j) →
      (b'.byte k).getLsbD j = (b.byte k).getLsbD j)

/-! ## Block copy -/

/-- R162, R163, R204: with both slots valid, BLIT between different modes raises MODE_MISMATCH; with equal modes and a
source that does not fit at (x, y) it raises COORD_FAULT. Nothing but STATUS changes. -/
def Obligations.BlitRefusesOtherModesAndMisfits : Prop :=
  ∀ (s : State) (sel : Slot) (d src : Buffer), s.slot sel = some d → s.slot (otherSlot sel) = some src →
    (d.mode ≠ src.mode → exec (.blit sel) s = .next { s with code := .modeMismatch, errSeen := true }) ∧
    (d.mode = src.mode →
      (s.operandX < 0 ∨ s.operandY < 0 ∨ s.operandX + src.width > d.width ∨ s.operandY + src.height > d.height) →
      exec (.blit sel) s = .next { s with code := .coordFault, errSeen := true })

/-- R169: whenever the fast-path condition of R164 or R165 holds and the source fits, the row copies leave exactly the
destination the per-pixel fallback leaves, so the path taken is not observable. -/
def Obligations.TheFastPathEqualsTheFallback : Prop :=
  ∀ (p : Params) (d src : Buffer) (x y : Nat), d.wf p → src.wf p → d.mode = src.mode → x + src.width ≤ d.width →
    y + src.height ≤ d.height →
    (d.mode = .gray4 ∧ x % 2 = 0 ∧ src.width % 2 = 0 ∨
      d.mode = .rgb444 ∧ d.width % 2 = 0 ∧ x % 2 = 0 ∧ src.width % 2 = 0) →
    ∃ d', d.copyRows src x y = some d' ∧ d.copyPixels src x y = some d'

/-- R168, and R169, R170 for the fast path: BLIT of a fitting source of the same mode completes. A destination bit that no
copied pixel owns is unchanged; a bit that some copied pixel owns holds what the row-major last such pixel's write of
its source value puts there. Nothing else but STATUS.CODE changes. -/
def Obligations.BlitLeavesTheRowMajorLastWrite : Prop :=
  ∀ (s : State) (sel : Slot) (d src : Buffer) (x y : Nat), s.Inv → s.slot sel = some d →
    s.slot (otherSlot sel) = some src → d.mode = src.mode → s.operandX = x → s.operandY = y →
    x + src.width ≤ d.width → y + src.height ≤ d.height →
    ∃ d', exec (.blit sel) s = .next { s.setSlot sel d' with code := .ok } ∧ d.sameShape d' ∧
      ∀ k j, j < 8 →
        ((∀ i r, src.inRange i r → ¬ownsBit d.mode d.width (x + i) (y + r) k j) →
          (d'.byte k).getLsbD j = (d.byte k).getLsbD j) ∧
        (∀ i r v, src.inRange i r → src.readPixel i r = some v → ownsBit d.mode d.width (x + i) (y + r) k j →
          (∀ i' r', src.inRange i' r' → laterPixel i' r' i r →
            ¬ownsBit d.mode d.width (x + i') (y + r') k j) →
          (d'.byte k).getLsbD j = (laneAt d.mode d.width (x + i) (y + r) k v).getLsbD j)

/-- R168, R115: after BLIT ends OK on a destination of even width, the pixel at (x + i, y + r) reads the source pixel
(i, r), and every other in-range pixel reads what it did. -/
def Obligations.BlitOnEvenWidthCopiesExactlyTheSource : Prop :=
  ∀ (s t : State) (sel : Slot) (d d' src : Buffer) (x y : Nat), s.Inv → s.slot sel = some d →
    s.slot (otherSlot sel) = some src → d.width % 2 = 0 → s.operandX = x → s.operandY = y →
    exec (.blit sel) s = .next t → t.code = .ok → t.slot sel = some d' →
    (∀ i r, src.inRange i r → d'.readPixel (x + i) (y + r) = src.readPixel i r) ∧
    (∀ i r, d.inRange i r → ¬((x ≤ i ∧ i < x + src.width) ∧ (y ≤ r ∧ r < y + src.height)) →
      d'.readPixel i r = d.readPixel i r)

/-! ## Buffer management and raw access -/

/-- R181, R182, with R10: CONFIG with w >= 1, h >= 1 and L <= P_LMAX completes, whatever the slot held: the slot holds a
new buffer of that mode and size, of L = ceil(w * h * bpp / 8) bytes, each 0x00. Nothing else but STATUS.CODE changes. -/
def Obligations.ConfigMakesAZeroFilledBuffer : Prop :=
  ∀ (s : State) (sel : Slot) (mode : Mode) (w h : Nat), s.operandW = w → s.operandH = h → 1 ≤ w → 1 ≤ h →
    (w * h * (if mode = .gray4 then 4 else 12) + 7) / 8 ≤ s.params.pLMax →
    ∃ b, exec (.config sel mode) s = .next { s.setSlot sel b with code := .ok } ∧ b.mode = mode ∧ b.width = w ∧
      b.height = h ∧ b.len = (w * h * (if mode = .gray4 then 4 else 12) + 7) / 8 ∧
      ∀ i, i < b.len → b.load i = some 0x00#8

/-- R180: CONFIG with w < 1, h < 1 or L > P_LMAX raises BAD_CONFIG and changes nothing but STATUS; a slot that was valid
keeps its old buffer. -/
def Obligations.BadConfigChangesNoSlot : Prop :=
  ∀ (s : State) (sel : Slot) (mode : Mode),
    (s.operandW < 1 ∨ s.operandH < 1 ∨
      ((s.operandW * s.operandH * (if mode = .gray4 then 4 else 12) + 7) / 8 > s.params.pLMax)) →
    exec (.config sel mode) s = .next { s with code := .badConfig, errSeen := true }

/-- R184: RAWRD on a valid slot returns byte OPI in RES_BYTE when OPI < L and raises INDEX_FAULT when OPI >= L, OPI read
as unsigned; on a slot not valid it raises NOT_CONFIGURED. Nothing else changes, storage included. -/
def Obligations.RawrdReturnsTheByteOrRaises : Prop :=
  ∀ (s : State) (sel : Slot),
    (s.slot sel = none → exec (.rawrd sel) s = .next { s with code := .notConfigured, errSeen := true }) ∧
    ∀ b, s.slot sel = some b →
      (s.opi.toNat < b.len →
        exec (.rawrd sel) s = .next { s with code := .ok, resByte := (b.byte s.opi.toNat).setWidth 32 }) ∧
      (b.len ≤ s.opi.toNat → exec (.rawrd sel) s = .next { s with code := .indexFault, errSeen := true })

/-- R185: RAWWR on a valid slot stores the low 8 bits of OPB at byte OPI when OPI < L, every other byte unchanged, and
raises INDEX_FAULT when OPI >= L; on a slot not valid it raises NOT_CONFIGURED. -/
def Obligations.RawwrStoresTheByteOrRaises : Prop :=
  ∀ (s : State) (sel : Slot), s.Inv →
    (s.slot sel = none → exec (.rawwr sel) s = .next { s with code := .notConfigured, errSeen := true }) ∧
    ∀ b, s.slot sel = some b →
      (s.opi.toNat < b.len →
        ∃ b', exec (.rawwr sel) s = .next { s.setSlot sel b' with code := .ok } ∧ b.sameShape b' ∧
          (b'.byte s.opi.toNat).toNat = s.opb.toNat % 256 ∧ ∀ k, k ≠ s.opi.toNat → b'.byte k = b.byte k) ∧
      (b.len ≤ s.opi.toNat → exec (.rawwr sel) s = .next { s with code := .indexFault, errSeen := true })

/-- R183: adopting a caller's byte sequence is CONFIG followed by one RAWWR per byte. With at most L bytes (and indices
that fit OPI) every RAWWR ends OK, so after each prefix of the sequence the code is OK and ERRSEEN is as CONFIG left it,
and the storage is the caller's bytes, then zeros to L; the first surplus byte, at index L, raises INDEX_FAULT. -/
def Obligations.AdoptedBytesBecomeTheStorage : Prop :=
  ∀ (s t : State) (sel : Slot) (mode : Mode) (b : Buffer) (bytes : List Byte), s.Inv →
    exec (.config sel mode) s = .next t → t.code = .ok → t.slot sel = some b → b.len < 2 ^ 32 →
    bytes.length ≤ b.len →
    (∀ n, ∃ u, adoptBytes sel 0 (bytes.take n) t = .next u ∧ u.code = .ok ∧ u.errSeen = t.errSeen) ∧
    ∃ u b', adoptBytes sel 0 bytes t = .next u ∧ u.slot sel = some b' ∧ b.sameShape b' ∧
      (∀ k, k < b.len → b'.byte k = (bytes[k]?).getD 0x00#8) ∧
      ∃ z, exec (.rawwr sel) { u with opi := BitVec.ofNat 32 b.len } = .next z ∧ z.code = .indexFault

/-! ## How commands end, and what they leave alone -/

/-- R202: a command that ends with a code other than OK has changed STATUS.CODE and set ERRSEEN, and nothing else. -/
def Obligations.ARaisedCommandChangesOnlyStatus : Prop :=
  ∀ (i : Instr) (s t : State), exec i s = .next t → t.code ≠ .ok → t = { s with code := t.code, errSeen := true }

/-- R203: a command that ends with OK leaves ERRSEEN as it was. -/
def Obligations.ACompletedCommandKeepsErrseen : Prop :=
  ∀ (i : Instr) (s t : State), exec i s = .next t → t.code = .ok → t.errSeen = s.errSeen

/-- R204: every command word ends with exactly one code, the first in R204's order of the conditions that hold: ILLEGAL
for a word that is no command, else NOT_IMPLEMENTED, BAD_CONFIG, NOT_CONFIGURED, MODE_MISMATCH, the command's own range
check, or OK. -/
def Obligations.EachWordEndsWithItsFirstFailingCheck : Prop :=
  ∀ (w : Word) (s : State), s.Inv →
    ∃ t, runCommand w s = .next t ∧
      t.code = (match decode w with
        | .error _ => .illegal
        | .ok i => endCode i { s with cmd := w })

/-- R42: no command reads STATUS. Two states that differ only in STATUS give the same outcome: the same fault, or next
states that differ at most in ERRSEEN. -/
def Obligations.NoCommandReadsStatus : Prop :=
  ∀ (i : Instr) (s : State) (c : StatusCode) (e : Bool),
    match exec i s with
    | .next t => ∃ e', exec i { s with code := c, errSeen := e } = .next { t with errSeen := e' }
    | .fault f => exec i { s with code := c, errSeen := e } = .fault f
    | .refused r => exec i { s with code := c, errSeen := e } = .refused r

/-- R45: a result register is written only by a command that ends with OK, and only by the commands its rule names:
RES_VAL and RES_RGB by GETPX, RES_ADDR and RES_INFO by ADDR, GETPX and SETPX, RES_BYTE by RAWRD. -/
def Obligations.ResultRegistersAreWrittenOnlyByTheirCommands : Prop :=
  ∀ (i : Instr) (s t : State), exec i s = .next t →
    (t.code ≠ .ok → SameResults s t) ∧
    (i ≠ .getpx (selOf i) → t.resVal = s.resVal ∧ t.resRgb = s.resRgb) ∧
    (i ≠ .addr (selOf i) → i ≠ .getpx (selOf i) → i ≠ .setpx (selOf i) →
      t.resAddr = s.resAddr ∧ t.resInfo = s.resInfo) ∧
    (i ≠ .rawrd (selOf i) → t.resByte = s.resByte)

/-- R235, R44: no command changes an operand register, CMD, the host program, its index, what the host last read, or a
parameter. -/
def Obligations.NoCommandChangesOperandsOrTheHostSide : Prop :=
  ∀ (i : Instr) (s t : State), exec i s = .next t → SameOperands s t ∧ SameHostSide s t

/-- R65, R171: no command changes the storage or the fields of the slot it does not name in SEL; BLIT never writes its
source. -/
def Obligations.NoCommandChangesTheOtherSlot : Prop :=
  ∀ (i : Instr) (s t : State), exec i s = .next t → t.slot (otherSlot (selOf i)) = s.slot (otherSlot (selOf i))

/-- R122, R123, R125, R184: ADDR, GETPX, INVERT and RAWRD change no slot: every storage byte reads as before. -/
def Obligations.ReadingCommandsLeaveStorageAlone : Prop :=
  ∀ (s t : State) (sel : Slot), ∀ i ∈ [Instr.addr sel, .getpx sel, .invert sel, .rawrd sel],
    exec i s = .next t → SameSlots s t

/-- R55: SETPX, FILLRECT and BLIT never change a padding nibble, at any width: a bit of the slot's storage that no
in-range pixel owns stays as it was. -/
def Obligations.PixelWritesLeavePaddingAlone : Prop :=
  ∀ (s t : State) (sel : Slot) (b b' : Buffer), s.Inv → s.slot sel = some b → t.slot sel = some b' →
    ∀ i ∈ [Instr.setpx sel, .fillrect sel, .blit sel], exec i s = .next t →
      ∀ k j, (∀ x y, b.inRange x y → ¬ownsBit b.mode b.width x y k j) → (b'.byte k).getLsbD j = (b.byte k).getLsbD j

/-- R38: while a slot is valid, its mode, W, H and L change only through a successful CONFIG of that slot (or a platform
reset): every other step leaves the slot valid with the same shape. -/
def Obligations.OnlyASuccessfulConfigChangesASlotsShape : Prop :=
  ∀ (s t : State) (sel : Slot) (b : Buffer), step s = .next t → s.slot sel = some b →
    s.currentAction ≠ some .platformReset →
    (∃ b', t.slot sel = some b' ∧ b.sameShape b') ∨
    (t.code = .ok ∧ ∃ w mode, s.currentAction = some (.wr s.params.pBase 32 w) ∧ decode w = .ok (.config sel mode))

/-- R80: each pseudo-instruction expands to the host actions the table shows, in that order, and running them from any
state stores its operands and then runs its command: the run ends as that command does at the state in which the operand
registers hold the values written (and keep them, for no command changes one). -/
def Obligations.PseudoInstructionsLoadOperandsAndRunTheirCommand : Prop :=
  (∀ (p : Params) (q : Pseudo),
    expandPseudo p q = match q with
      | .cfg sel mode w h =>
        [.wr (p.pBase + 0x10) 32 w, .wr (p.pBase + 0x14) 32 h, .wr p.pBase 32 (encode (.config sel mode))]
      | .paddr sel x y => [.wr (p.pBase + 0x08) 32 x, .wr (p.pBase + 0x0C) 32 y, .wr p.pBase 32 (encode (.addr sel))]
      | .pget sel x y => [.wr (p.pBase + 0x08) 32 x, .wr (p.pBase + 0x0C) 32 y, .wr p.pBase 32 (encode (.getpx sel))]
      | .pset sel x y v =>
        [.wr (p.pBase + 0x08) 32 x, .wr (p.pBase + 0x0C) 32 y, .wr (p.pBase + 0x18) 32 v,
          .wr p.pBase 32 (encode (.setpx sel))]
      | .pfill sel v => [.wr (p.pBase + 0x18) 32 v, .wr p.pBase 32 (encode (.fill sel))]
      | .prect sel x y w h v =>
        [.wr (p.pBase + 0x08) 32 x, .wr (p.pBase + 0x0C) 32 y, .wr (p.pBase + 0x10) 32 w, .wr (p.pBase + 0x14) 32 h,
          .wr (p.pBase + 0x18) 32 v, .wr p.pBase 32 (encode (.fillrect sel))]
      | .pinv sel x y => [.wr (p.pBase + 0x08) 32 x, .wr (p.pBase + 0x0C) 32 y, .wr p.pBase 32 (encode (.invert sel))]
      | .pblit sel x y => [.wr (p.pBase + 0x08) 32 x, .wr (p.pBase + 0x0C) 32 y, .wr p.pBase 32 (encode (.blit sel))]
      | .brd sel i => [.wr (p.pBase + 0x1C) 32 i, .wr p.pBase 32 (encode (.rawrd sel))]
      | .bwr sel i b => [.wr (p.pBase + 0x1C) 32 i, .wr (p.pBase + 0x20) 32 b, .wr p.pBase 32 (encode (.rawwr sel))]) ∧
  ∀ (s : State) (q : Pseudo) (rest : List HostAction), s.program.drop s.index = expandPseudo s.params q ++ rest →
    match q with
    | .cfg sel mode w h =>
      Sys2Proof.core.run 3 s = exec (.config sel mode)
        { s with index := s.index + 3, opw := w, oph := h, cmd := encode (.config sel mode) }
    | .paddr sel x y =>
      Sys2Proof.core.run 3 s = exec (.addr sel)
        { s with index := s.index + 3, opx := x, opy := y, cmd := encode (.addr sel) }
    | .pget sel x y =>
      Sys2Proof.core.run 3 s = exec (.getpx sel)
        { s with index := s.index + 3, opx := x, opy := y, cmd := encode (.getpx sel) }
    | .pset sel x y v =>
      Sys2Proof.core.run 4 s = exec (.setpx sel)
        { s with index := s.index + 4, opx := x, opy := y, opv := v, cmd := encode (.setpx sel) }
    | .pfill sel v =>
      Sys2Proof.core.run 2 s = exec (.fill sel) { s with index := s.index + 2, opv := v, cmd := encode (.fill sel) }
    | .prect sel x y w h v =>
      Sys2Proof.core.run 6 s = exec (.fillrect sel)
        { s with index := s.index + 6, opx := x, opy := y, opw := w, oph := h, opv := v, cmd := encode (.fillrect sel) }
    | .pinv sel x y =>
      Sys2Proof.core.run 3 s = exec (.invert sel)
        { s with index := s.index + 3, opx := x, opy := y, cmd := encode (.invert sel) }
    | .pblit sel x y =>
      Sys2Proof.core.run 3 s = exec (.blit sel)
        { s with index := s.index + 3, opx := x, opy := y, cmd := encode (.blit sel) }
    | .brd sel i =>
      Sys2Proof.core.run 2 s = exec (.rawrd sel) { s with index := s.index + 2, opi := i, cmd := encode (.rawrd sel) }
    | .bwr sel i b =>
      Sys2Proof.core.run 3 s = exec (.rawwr sel)
        { s with index := s.index + 3, opi := i, opb := b, cmd := encode (.rawwr sel) }
end

