-- ==== Sys2Proof/Laws/Memory.lean ====
section
/-! SUPPORT. The laws of storage memory: read after write, the canonical form is kept, and canonical memories that read
alike are equal. -/

namespace Sys2Proof.Machine

theorem Memory.read_cons (c : Host.Cell) (m : Memory) (a : Nat) :
    Memory.read (c :: m) a = if a = c.1 then c.2 else Memory.read m a := rfl

/-- An index that is in no cell reads as unlisted. -/
theorem Memory.read_eq_unlisted {m : Memory} {a : Nat} (h : ∀ c ∈ m, c.1 ≠ a) : Memory.read m a = Memory.unlisted := by
  induction m with
  | nil => rfl
  | cons c m ih =>
    have hne : a ≠ c.1 := fun e => h c (by simp) e.symm
    simpa [Memory.read_cons, hne] using ih fun d hd => h d (by simp [hd])

/-- The cells of a canonical memory after the first lie above it. -/
theorem Memory.wf_cons {c : Host.Cell} {m : Memory} :
    Memory.wf (c :: m) ↔ (∀ d ∈ m, c.1 < d.1) ∧ c.2 ≠ Memory.unlisted ∧ Memory.wf m := by
  simp only [Memory.wf, List.pairwise_cons, List.forall_mem_cons]
  tauto

/-- Below the first cell a canonical memory reads as unlisted. -/
theorem Memory.read_below {m : Memory} {a : Nat} (h : ∀ d ∈ m, a < d.1) : Memory.read m a = Memory.unlisted :=
  Memory.read_eq_unlisted fun c hc => (h c hc).ne'

/-- A read after a write gives the byte written at that index and the old byte anywhere else. -/
theorem Memory.read_write {m : Memory} (hm : Memory.wf m) (a i : Nat) (v : Byte) :
    Memory.read (Memory.write m a v) i = if i = a then v else Memory.read m i := by
  induction m with
  | nil =>
    by_cases hv : v = Memory.unlisted
    · simp [Memory.write, Memory.read, hv]
    · simp [Memory.write, Memory.read, hv]
  | cons c m ih =>
    obtain ⟨habove, _, hrest⟩ := Memory.wf_cons.1 hm
    unfold Memory.write
    split
    · rename_i hlt
      have hread : Memory.read (c :: m) a = Memory.unlisted :=
        Memory.read_below (by simpa using ⟨hlt, fun x b hb => hlt.trans (habove _ hb)⟩)
      split
      · rename_i hv
        split
        · rename_i hi; rw [hi, hread, hv]
        · rfl
      · rw [Memory.read_cons]
    · split
      · rename_i _ heq
        have hread : Memory.read m a = Memory.unlisted := Memory.read_below (by rw [heq]; exact habove)
        split
        · rename_i hv
          by_cases hi : i = a
          · rw [if_pos hi, hi, hread, hv]
          · rw [if_neg hi, Memory.read_cons, if_neg (heq ▸ hi)]
        · rw [Memory.read_cons, Memory.read_cons, heq]
          by_cases hi : i = c.1 <;> simp [hi]
      · rename_i _ hne
        rw [Memory.read_cons, Memory.read_cons, ih hrest]
        by_cases hi : i = c.1
        · simp [hi, Ne.symm hne]
        · simp [hi]

/-- The cells of a written memory are old cells or the cell written. -/
theorem Memory.mem_write {m : Memory} {a : Nat} {v : Byte} {c : Host.Cell} (h : c ∈ Memory.write m a v) :
    c ∈ m ∨ c = (a, v) := by
  induction m with
  | nil =>
    unfold Memory.write at h
    split at h <;> simp_all
  | cons d m ih =>
    unfold Memory.write at h
    split at h
    · split at h <;> simp_all
      tauto
    · split at h
      · split at h <;> simp_all
        tauto
      · rcases List.mem_cons.1 h with rfl | h
        · simp
        · rcases ih h with h | h <;> simp [h]

/-- A write keeps the canonical form. -/
theorem Memory.write_wf {m : Memory} (hm : Memory.wf m) (a : Nat) (v : Byte) : Memory.wf (Memory.write m a v) := by
  induction m with
  | nil =>
    unfold Memory.write
    split <;> simp_all [Memory.wf]
  | cons c m ih =>
    obtain ⟨habove, hc, hrest⟩ := Memory.wf_cons.1 hm
    unfold Memory.write
    split
    · rename_i hlt
      split
      · exact hm
      · rename_i hv
        refine Memory.wf_cons.2 ⟨?_, hv, hm⟩
        simpa using ⟨hlt, fun x b hb => hlt.trans (habove _ hb)⟩
    · split
      · rename_i _ heq
        split
        · exact hrest
        · rename_i hv
          exact Memory.wf_cons.2 ⟨by rw [heq]; exact habove, hv, hrest⟩
      · rename_i hlt hne
        refine Memory.wf_cons.2 ⟨fun d hd => ?_, hc, ih hrest⟩
        rcases Memory.mem_write hd with hd | rfl
        · exact habove d hd
        · show c.1 < a
          omega

/-- Canonical memories that read alike at every index are equal data. -/
theorem Memory.ext_of_read {m m' : Memory} (hm : Memory.wf m) (hm' : Memory.wf m')
    (h : ∀ i, Memory.read m i = Memory.read m' i) : m = m' := by
  induction m generalizing m' with
  | nil =>
    cases m' with
    | nil => rfl
    | cons c m' =>
      have := h c.1
      exact absurd (by simpa [Memory.read] using this.symm) (Memory.wf_cons.1 hm').2.1
  | cons c m ih =>
    obtain ⟨habove, hc, hrest⟩ := Memory.wf_cons.1 hm
    cases m' with
    | nil =>
      have := h c.1
      exact absurd (by simpa [Memory.read] using this) hc
    | cons c' m' =>
      obtain ⟨habove', hc', hrest'⟩ := Memory.wf_cons.1 hm'
      have hkey : c.1 = c'.1 := by
        by_contra hne
        rcases Nat.lt_or_gt_of_ne hne with hlt | hlt
        · have := h c.1
          rw [Memory.read_cons, if_pos rfl,
            Memory.read_below (by simpa using ⟨hlt, fun x b hb => hlt.trans (habove' _ hb)⟩)] at this
          exact hc this
        · have := h c'.1
          rw [Memory.read_cons c', if_pos rfl,
            Memory.read_below (by simpa using ⟨hlt, fun x b hb => hlt.trans (habove _ hb)⟩)] at this
          exact hc' this.symm
      have hval : c.2 = c'.2 := by
        have := h c.1
        rwa [Memory.read_cons, if_pos rfl, Memory.read_cons, if_pos hkey] at this
      have htail : m = m' := by
        refine ih hrest hrest' fun i => ?_
        by_cases hi : i = c.1
        · rw [hi, Memory.read_below habove, hkey, Memory.read_below habove']
        · have := h i
          rwa [Memory.read_cons, if_neg hi, Memory.read_cons, if_neg (hkey ▸ hi)] at this
      rw [htail, Prod.ext hkey hval]

/-- The memory of reset: nothing listed. -/
@[simp] theorem Memory.read_nil (i : Nat) : Memory.read [] i = 0x00#8 := rfl

end Sys2Proof.Machine
end

