-- ==== Sys2Proof/Laws/Buffer.lean ====
section
/-! SUPPORT. The laws of a buffer's storage operations: what load, store, memRead and memWrite answer, and that they
keep the storage sound. -/

namespace Sys2Proof.Machine

/-- A buffer's storage is sound: in canonical form, with every listed index below the length. -/
def Buffer.Sound (b : Buffer) : Prop := Memory.wf b.mem ∧ ∀ c ∈ b.mem, c.1 < b.len

theorem Buffer.wf.sound {p : Params} {b : Buffer} (h : b.wf p) : b.Sound := ⟨h.2.2.2.2.1, h.2.2.2.2.2⟩

theorem Buffer.wf.len_eq {p : Params} {b : Buffer} (h : b.wf p) : b.len = storageLength b.mode b.width b.height :=
  h.2.2.1

theorem Buffer.sameShape_refl (b : Buffer) : b.sameShape b := ⟨rfl, rfl, rfl, rfl⟩

theorem Buffer.sameShape.trans {a b c : Buffer} (h : a.sameShape b) (h' : b.sameShape c) : a.sameShape c :=
  ⟨h'.1.trans h.1, h'.2.1.trans h.2.1, h'.2.2.1.trans h.2.2.1, h'.2.2.2.trans h.2.2.2⟩

/-- A buffer of the same shape with sound storage is as well formed as the old one. -/
theorem Buffer.wf.of_sameShape {p : Params} {b b' : Buffer} (h : b.wf p) (hs : b.sameShape b') (hb : b'.Sound) :
    b'.wf p := by
  obtain ⟨hm, hw, hh, hl⟩ := hs
  obtain ⟨h1, h2, h3, h4, _, _⟩ := h
  exact ⟨hw ▸ h1, hh ▸ h2, by rw [hl, hm, hw, hh]; exact h3, hl ▸ h4, hb.1, hb.2⟩

/-- A new buffer lists nothing. -/
theorem freshBuffer_sound (mode : Mode) (w h : Nat) : (freshBuffer mode w h).Sound := by
  simp [Buffer.Sound, freshBuffer, Memory.wf]

/-- Every byte of a new buffer is 0x00 (R181). -/
@[simp] theorem freshBuffer_byte (mode : Mode) (w h i : Nat) : (freshBuffer mode w h).byte i = 0x00#8 := rfl

/-- At or above the length nothing is stored. -/
theorem Buffer.Sound.byte_above {b : Buffer} (h : b.Sound) {i : Nat} (hi : b.len ≤ i) : b.byte i = 0x00#8 :=
  Memory.read_eq_unlisted fun c hc e => by have := h.2 c hc; omega

/-- Sound buffers of one shape that hold the same bytes are equal data. -/
theorem Buffer.ext_of_byte {b b' : Buffer} (hb : b.Sound) (hb' : b'.Sound) (hs : b.sameShape b')
    (h : ∀ i, b'.byte i = b.byte i) : b' = b := by
  obtain ⟨hm, hw, hh, hl⟩ := hs
  have := Memory.ext_of_read hb'.1 hb.1 h
  cases b; cases b'; simp_all

/-! ## load and store -/

theorem Buffer.load_eq_some {b : Buffer} {i : Nat} {v : Byte} : b.load i = some v ↔ i < b.len ∧ b.byte i = v := by
  unfold Buffer.load
  split <;> simp_all

/-- A load below the length answers the byte. -/
theorem Buffer.load_of_lt {b : Buffer} {i : Nat} (h : i < b.len) : b.load i = some (b.byte i) :=
  Buffer.load_eq_some.2 ⟨h, rfl⟩

/-- The buffer after the byte at i became v. -/
def Buffer.withByte (b : Buffer) (i : Nat) (v : Byte) : Buffer := { b with mem := Memory.write b.mem i v }

theorem Buffer.store_eq_some {b b' : Buffer} {i : Nat} {v : Byte} :
    b.store i v = some b' ↔ i < b.len ∧ b' = b.withByte i v := by
  unfold Buffer.store
  split <;> simp_all [Buffer.withByte, eq_comm]

/-- A store below the length answers the buffer with that byte. -/
theorem Buffer.store_of_lt {b : Buffer} {i : Nat} (v : Byte) (h : i < b.len) :
    b.store i v = some (b.withByte i v) := Buffer.store_eq_some.2 ⟨h, rfl⟩

theorem Buffer.withByte_sameShape (b : Buffer) (i : Nat) (v : Byte) : b.sameShape (b.withByte i v) :=
  ⟨rfl, rfl, rfl, rfl⟩

@[simp] theorem Buffer.withByte_mode (b : Buffer) (i : Nat) (v : Byte) : (b.withByte i v).mode = b.mode := rfl
@[simp] theorem Buffer.withByte_width (b : Buffer) (i : Nat) (v : Byte) : (b.withByte i v).width = b.width := rfl
@[simp] theorem Buffer.withByte_height (b : Buffer) (i : Nat) (v : Byte) : (b.withByte i v).height = b.height := rfl
@[simp] theorem Buffer.withByte_len (b : Buffer) (i : Nat) (v : Byte) : (b.withByte i v).len = b.len := rfl

theorem Buffer.Sound.withByte {b : Buffer} (hb : b.Sound) {i : Nat} (v : Byte) (h : i < b.len) :
    (b.withByte i v).Sound := by
  refine ⟨Memory.write_wf hb.1 i v, fun c hc => ?_⟩
  rcases Memory.mem_write hc with hc | rfl
  · exact hb.2 c hc
  · exact h

theorem Buffer.Sound.byte_withByte {b : Buffer} (hb : b.Sound) (i : Nat) (v : Byte) (k : Nat) :
    (b.withByte i v).byte k = if k = i then v else b.byte k := Memory.read_write hb.1 i k v

/-! ## memRead and memWrite -/

/-- The bytes at a, ..., a + n - 1. -/
def Buffer.bytesFrom (b : Buffer) (a n : Nat) : List Byte := (List.range n).map fun k => b.byte (a + k)

@[simp] theorem Buffer.bytesFrom_length (b : Buffer) (a n : Nat) : (b.bytesFrom a n).length = n := by
  simp [Buffer.bytesFrom]

theorem Buffer.bytesFrom_succ (b : Buffer) (a n : Nat) :
    b.bytesFrom a (n + 1) = b.byte a :: b.bytesFrom (a + 1) n := by
  simp [Buffer.bytesFrom, List.range_succ_eq_map, Function.comp_def, Nat.add_assoc, Nat.add_comm 1]

theorem Buffer.bytesFrom_getElem? (b : Buffer) (a n k : Nat) :
    (b.bytesFrom a n)[k]? = if k < n then some (b.byte (a + k)) else none := by
  by_cases h : k < n <;> simp [Buffer.bytesFrom, h]

/-- A read that stays below the length answers the bytes. -/
theorem Buffer.memRead_of_le {b : Buffer} {a n : Nat} (h : a + n ≤ b.len) : b.memRead a n = some (b.bytesFrom a n) := by
  induction n generalizing a with
  | zero => rfl
  | succ n ih =>
    simp [Buffer.memRead, Buffer.load_of_lt (show a < b.len by omega), ih (a := a + 1) (by omega),
      Buffer.bytesFrom_succ]

/-- A write that stays below the length answers a sound buffer of the same shape, with the listed bytes from a up and
every other byte as before. -/
theorem Buffer.Sound.memWrite_of_le {b : Buffer} (hb : b.Sound) {a : Nat} {bs : List Byte}
    (h : a + bs.length ≤ b.len) :
    ∃ b', b.memWrite a bs = some b' ∧ b'.Sound ∧ b.sameShape b' ∧
      ∀ k, b'.byte k = if a ≤ k then (bs[k - a]?).getD (b.byte k) else b.byte k := by
  induction bs generalizing a b with
  | nil => exact ⟨b, rfl, hb, b.sameShape_refl, fun k => by simp⟩
  | cons v vs ih =>
    have ha : a < b.len := by simp at h; omega
    obtain ⟨b', hw, hs, hsh, hk⟩ := ih (hb.withByte v ha) (a := a + 1) (by simp at h ⊢; omega)
    refine ⟨b', by simp [Buffer.memWrite, Buffer.store_of_lt v ha, hw], hs,
      (b.withByte_sameShape a v).trans hsh, fun k => ?_⟩
    rw [hk k, hb.byte_withByte]
    rcases Nat.lt_trichotomy k a with hka | rfl | hka
    · simp [show ¬a ≤ k by omega, show ¬a + 1 ≤ k by omega, show k ≠ a by omega]
    · simp
    · obtain ⟨d, rfl⟩ : ∃ d, k = a + 1 + d := ⟨k - (a + 1), by omega⟩
      simp [show a ≤ a + 1 + d by omega, show a + 1 + d ≠ a by omega, show a + 1 + d - a = d + 1 by omega]

/-- Whatever range it is given, a write that answers keeps the shape. -/
theorem Buffer.memWrite_sameShape {b b' : Buffer} {a : Nat} {bs : List Byte} (h : b.memWrite a bs = some b') :
    b.sameShape b' := by
  induction bs generalizing a b with
  | nil => simp only [Buffer.memWrite, Option.some.injEq] at h; exact h ▸ b.sameShape_refl
  | cons v vs ih =>
    simp only [Buffer.memWrite, Option.bind_eq_bind, Option.bind_eq_some_iff] at h
    obtain ⟨b1, h1, h2⟩ := h
    obtain ⟨_, rfl⟩ := Buffer.store_eq_some.1 h1
    exact (b.withByte_sameShape a v).trans (ih h2)

/-- Whatever range it is given, a write that answers keeps the storage sound. -/
theorem Buffer.Sound.memWrite {b b' : Buffer} (hb : b.Sound) {a : Nat} {bs : List Byte}
    (h : b.memWrite a bs = some b') : b'.Sound := by
  induction bs generalizing a b with
  | nil => simp [Buffer.memWrite] at h; exact h ▸ hb
  | cons v vs ih =>
    simp only [Buffer.memWrite, Option.bind_eq_bind, Option.bind_eq_some_iff] at h
    obtain ⟨b1, h1, h2⟩ := h
    obtain ⟨hlt, rfl⟩ := Buffer.store_eq_some.1 h1
    exact ih (hb.withByte v hlt) h2

end Sys2Proof.Machine
end

