-- ==== Sys2Proof/Laws/Pixel.lean ====
section
/-! SUPPORT. The laws of the pixel units: what ReadPixel and WritePixel answer, byte by byte, where the pixel's bytes lie
inside the storage, and that a write that answers keeps the shape and soundness of the buffer. -/

namespace Sys2Proof.Machine

/-! ## Phase and address by the parity of x -/

theorem phaseOf_of_even {x : Nat} (h : x % 2 = 0) : phaseOf x = .even := by simp [phaseOf, h]

theorem phaseOf_of_odd {x : Nat} (h : x % 2 = 1) : phaseOf x = .odd := by simp [phaseOf, h]

/-- R101. -/
theorem addressOf_gray4 (w x y : Nat) : addressOf .gray4 w x y = (y * w) / 2 + x / 2 := by simp [addressOf]

/-- R102. -/
theorem addressOf_rgb444_even {x : Nat} (h : x % 2 = 0) (w y : Nat) :
    addressOf .rgb444 w x y = ((x + y * w) * 3) / 2 := by simp [addressOf, phaseOf_of_even h]

/-- R103. -/
theorem addressOf_rgb444_odd {x : Nat} (h : x % 2 = 1) (w y : Nat) :
    addressOf .rgb444 w x y = ((x - 1 + y * w) * 3) / 2 + 1 := by simp [addressOf, phaseOf_of_odd h]

/-! ## The masks and lanes by byte -/

@[simp] theorem maskAt_addressOf (mode : Mode) (w x y : Nat) :
    maskAt mode w x y (addressOf mode w x y) = (pixelMasks mode (phaseOf x)).1 := by simp [maskAt]

@[simp] theorem maskAt_addressOf_succ (mode : Mode) (w x y : Nat) :
    maskAt mode w x y (addressOf mode w x y + 1) = (pixelMasks mode (phaseOf x)).2 := by simp [maskAt]

@[simp] theorem laneAt_addressOf (mode : Mode) (w x y : Nat) (v : Packed) :
    laneAt mode w x y (addressOf mode w x y) v = (alignLanes mode (phaseOf x) v).1 := by simp [laneAt]

@[simp] theorem laneAt_addressOf_succ (mode : Mode) (w x y : Nat) (v : Packed) :
    laneAt mode w x y (addressOf mode w x y + 1) v = (alignLanes mode (phaseOf x) v).2 := by simp [laneAt]

/-- A byte the pixel does not touch has no mask bits. -/
theorem maskAt_of_ne {mode : Mode} {w x y k : Nat} (h0 : k ≠ addressOf mode w x y)
    (h1 : k ≠ addressOf mode w x y + 1) : maskAt mode w x y k = 0#8 := by simp [maskAt, h0, h1]

/-- A byte the pixel does not touch has no lane bits. -/
theorem laneAt_of_ne {mode : Mode} {w x y k : Nat} (v : Packed) (h0 : k ≠ addressOf mode w x y)
    (h1 : k ≠ addressOf mode w x y + 1) : laneAt mode w x y k v = 0#8 := by simp [laneAt, h0, h1]

theorem pixelMasks_gray4_snd (p : Phase) : (pixelMasks .gray4 p).2 = 0#8 := by cases p <;> rfl

theorem alignLanes_gray4_snd (p : Phase) (v : Packed) : (alignLanes .gray4 p v).2 = 0#8 := by cases p <;> rfl

@[simp] theorem bytesTouched_gray4 : bytesTouched .gray4 = 1 := rfl

@[simp] theorem bytesTouched_rgb444 : bytesTouched .rgb444 = 2 := rfl

/-- Writing back nothing changes nothing. -/
@[simp] theorem writeBack_zero (old : Byte) : writeBack old 0#8 0#8 = old := by
  show (old &&& BitVec.allOnes 8) ||| 0#8 = old
  rw [BitVec.and_allOnes, BitVec.or_zero]

/-! ## ReadPixel -/

/-- ReadPixel inside the storage answers the read multiplexer's value (R112). For Gray4 the second byte is not used. -/
theorem Buffer.readPixel_of_le {b : Buffer} {x y : Nat}
    (h : addressOf b.mode b.width x y + bytesTouched b.mode ≤ b.len) :
    b.readPixel x y = some (readMux b.mode (phaseOf x) (b.byte (addressOf b.mode b.width x y))
      (b.byte (addressOf b.mode b.width x y + 1))) := by
  unfold Buffer.readPixel
  cases hm : b.mode <;> rw [hm] at h
  · have h0 := Buffer.load_of_lt (b := b) (i := addressOf .gray4 b.width x y) (by simp at h; omega)
    cases hp : phaseOf x <;> simp [h0, readMux]
  · simp [Buffer.load_of_lt (b := b) (i := addressOf .rgb444 b.width x y) (by simp at h; omega),
      Buffer.load_of_lt (b := b) (i := addressOf .rgb444 b.width x y + 1) (by simp at h; omega)]

/-! ## WritePixel -/

/-- WritePixel inside the storage answers a sound buffer of the same shape in which each byte k keeps the bits outside
the pixel's mask and takes the pixel's lane inside it (R109, R113). -/
theorem Buffer.Sound.writePixel_of_le {b : Buffer} (hb : b.Sound) {x y : Nat} (v : Packed)
    (h : addressOf b.mode b.width x y + bytesTouched b.mode ≤ b.len) :
    ∃ b', b.writePixel x y v = some b' ∧ b'.Sound ∧ b.sameShape b' ∧
      ∀ k, b'.byte k = writeBack (b.byte k) (maskAt b.mode b.width x y k) (laneAt b.mode b.width x y k v) := by
  have h0 : addressOf b.mode b.width x y < b.len := by
    have : 1 ≤ bytesTouched b.mode := by cases b.mode <;> simp
    omega
  set a := addressOf b.mode b.width x y with ha
  set b1 := b.withByte a (writeBack (b.byte a) (pixelMasks b.mode (phaseOf x)).1
    (alignLanes b.mode (phaseOf x) v).1) with hb1
  have hs1 : b1.Sound := hb.withByte _ h0
  have hk1 : ∀ k, b1.byte k = if k = a then writeBack (b.byte a) (pixelMasks b.mode (phaseOf x)).1
    (alignLanes b.mode (phaseOf x) v).1 else b.byte k := hb.byte_withByte _ _
  by_cases hn : bytesTouched b.mode = 2
  · have h1 : a + 1 < b1.len := by rw [hb1]; simp; omega
    refine ⟨b1.withByte (a + 1) (writeBack (b1.byte (a + 1)) (pixelMasks b.mode (phaseOf x)).2
      (alignLanes b.mode (phaseOf x) v).2), ?_, hs1.withByte _ h1, ?_, fun k => ?_⟩
    · simp only [Buffer.writePixel, ← ha, Buffer.load_of_lt h0, Option.bind_eq_bind, Option.bind_some,
        Buffer.store_of_lt _ h0, ← hb1, hn, ↓reduceIte, Buffer.load_of_lt h1, Buffer.store_of_lt _ h1]
    · exact (b.withByte_sameShape _ _).trans (b1.withByte_sameShape _ _)
    · rw [hs1.byte_withByte, hk1, hk1]
      by_cases hka : k = a
      · subst hka; simp [ha]
      · by_cases hka1 : k = a + 1
        · subst hka1; simp [ha]
        · simp [hka, hka1, maskAt_of_ne (ha ▸ hka) (ha ▸ hka1), laneAt_of_ne v (ha ▸ hka) (ha ▸ hka1)]
  · have hg : b.mode = .gray4 := by cases hm : b.mode <;> simp_all
    refine ⟨b1, ?_, hs1, b.withByte_sameShape _ _, fun k => ?_⟩
    · simp only [Buffer.writePixel, ← ha, Buffer.load_of_lt h0, Option.bind_eq_bind, Option.bind_some,
        Buffer.store_of_lt _ h0, ← hb1, hn, ↓reduceIte]
    · rw [hk1]
      by_cases hka : k = a
      · subst hka; simp [ha]
      · by_cases hka1 : k = a + 1
        · subst hka1
          simp [ha, hg, pixelMasks_gray4_snd, alignLanes_gray4_snd]
        · simp [hka, maskAt_of_ne (ha ▸ hka) (ha ▸ hka1), laneAt_of_ne v (ha ▸ hka) (ha ▸ hka1)]

/-- A WritePixel that answers stored one byte or two, at indices below the length. -/
theorem Buffer.writePixel_eq_some {b b' : Buffer} {x y : Nat} {v : Packed} (h : b.writePixel x y v = some b') :
    ∃ i u, i < b.len ∧ (b' = b.withByte i u ∨ ∃ j u', j < b.len ∧ b' = (b.withByte i u).withByte j u') := by
  simp only [Buffer.writePixel, Option.bind_eq_bind, Option.bind_eq_some_iff] at h
  obtain ⟨b0, _, b1, h1, h2⟩ := h
  generalize writeBack b0 (pixelMasks b.mode (phaseOf x)).1 (alignLanes b.mode (phaseOf x) v).1 = u at h1
  obtain ⟨hlt, rfl⟩ := Buffer.store_eq_some.1 h1
  refine ⟨_, u, hlt, ?_⟩
  by_cases hn : bytesTouched b.mode = 2
  · simp only [hn, ↓reduceIte, Option.bind_eq_some_iff] at h2
    obtain ⟨_, _, h3⟩ := h2
    obtain ⟨hlt', rfl⟩ := Buffer.store_eq_some.1 h3
    exact .inr ⟨_, _, hlt', rfl⟩
  · simp only [hn, ↓reduceIte, Option.some.injEq] at h2
    exact .inl h2.symm

/-- A WritePixel that answers only stored bytes: the shape stays. -/
theorem Buffer.writePixel_sameShape {b b' : Buffer} {x y : Nat} {v : Packed} (h : b.writePixel x y v = some b') :
    b.sameShape b' := by
  obtain ⟨i, u, _, rfl | ⟨j, u', _, rfl⟩⟩ := Buffer.writePixel_eq_some h
  · exact b.withByte_sameShape i u
  · exact (b.withByte_sameShape i u).trans (Buffer.withByte_sameShape _ j u')

/-- A WritePixel that answers keeps the storage sound. -/
theorem Buffer.Sound.writePixel {b b' : Buffer} (hb : b.Sound) {x y : Nat} {v : Packed}
    (h : b.writePixel x y v = some b') : b'.Sound := by
  obtain ⟨i, u, hi, rfl | ⟨j, u', hj, rfl⟩⟩ := Buffer.writePixel_eq_some h
  · exact hb.withByte u hi
  · exact (hb.withByte u hi).withByte u' hj

/-! ## The row-major list of pixels -/

/-- The pixels of a row-major list are those of the rectangle. -/
theorem mem_rowMajor {x y w h : Nat} {p : Nat × Nat} :
    p ∈ rowMajor x y w h ↔ (x ≤ p.1 ∧ p.1 < x + w) ∧ (y ≤ p.2 ∧ p.2 < y + h) := by
  obtain ⟨i, j⟩ := p
  simp only [rowMajor, List.mem_flatMap, List.mem_range, List.mem_map, Prod.mk.injEq]
  constructor
  · rintro ⟨b, hb, a, ha, rfl, rfl⟩
    exact ⟨⟨by omega, by omega⟩, by omega, by omega⟩
  · rintro ⟨⟨h1, h2⟩, h3, h4⟩
    exact ⟨j - y, by omega, i - x, by omega, by omega, by omega⟩

end Sys2Proof.Machine
end

