-- ==== Sys2Proof/Laws/Copies.lean ====
section
/-! SUPPORT. The laws of the bulk operations: the doubling fill, the pixel loops and the row copies keep the shape and the
soundness of the buffer whenever they answer; what the doubling fill leaves at every byte; when the pixel loops answer. -/

namespace Sys2Proof.Machine

/-- A loop over Option that keeps a property at each answering turn keeps it when it answers. -/
theorem foldlM_option_invariant {α β : Type} {f : β → α → Option β} {P : β → Prop}
    (hstep : ∀ b a b', P b → f b a = some b' → P b') (l : List α) {b b' : β} (hb : P b)
    (h : l.foldlM f b = some b') : P b' := by
  induction l generalizing b with
  | nil => simp at h; exact h ▸ hb
  | cons a l ih =>
    simp only [List.foldlM_cons, Option.bind_eq_bind, Option.bind_eq_some_iff] at h
    obtain ⟨b1, h1, h2⟩ := h
    exact ih (hstep b a b1 hb h1) h2

/-- A loop over Option whose every turn answers, under a property that every turn keeps, answers. -/
theorem foldlM_option_answers {α β : Type} {f : β → α → Option β} {P : β → Prop} (l : List α)
    (hstep : ∀ b, ∀ a ∈ l, P b → ∃ b', f b a = some b' ∧ P b') {b : β} (hb : P b) :
    ∃ b', l.foldlM f b = some b' ∧ P b' := by
  induction l generalizing b with
  | nil => exact ⟨b, rfl, hb⟩
  | cons a l ih =>
    obtain ⟨b1, h1, hb1⟩ := hstep b a (by simp) hb
    obtain ⟨b2, h2, hb2⟩ := ih (fun b a ha => hstep b a (by simp [ha])) hb1
    exact ⟨b2, by simp [h1, h2], hb2⟩

/-- Shape and soundness in one: what every storage operation keeps. -/
def Buffer.Continues (b b' : Buffer) : Prop := b'.Sound ∧ b.sameShape b'

theorem Buffer.Continues.refl {b : Buffer} (h : b.Sound) : b.Continues b := ⟨h, b.sameShape_refl⟩

theorem Buffer.Continues.trans {a b c : Buffer} (h : a.Continues b) (h' : b.Continues c) : a.Continues c :=
  ⟨h'.1, h.2.trans h'.2⟩

theorem Buffer.Continues.withByte {a b : Buffer} (h : a.Continues b) {i : Nat} (v : Byte) (hi : i < b.len) :
    a.Continues (b.withByte i v) :=
  h.trans ⟨h.1.withByte v hi, b.withByte_sameShape i v⟩

theorem Buffer.Continues.writePixel {a b b' : Buffer} (h : a.Continues b) {x y : Nat} {v : Packed}
    (hw : b.writePixel x y v = some b') : a.Continues b' :=
  h.trans ⟨h.1.writePixel hw, Buffer.writePixel_sameShape hw⟩

theorem Buffer.Continues.memWrite {a b b' : Buffer} (h : a.Continues b) {i : Nat} {bs : List Byte}
    (hw : b.memWrite i bs = some b') : a.Continues b' :=
  h.trans ⟨h.1.memWrite hw, Buffer.memWrite_sameShape hw⟩

/-- The doubling copy continues the buffer (R142). -/
theorem Buffer.Continues.doublingCopy {a : Buffer} {fuel : Nat} :
    ∀ {f : Nat} {b b' : Buffer}, a.Continues b → doublingCopy fuel f b = some b' → a.Continues b' := by
  induction fuel with
  | zero => intro f b b' h hw; simp [Machine.doublingCopy] at hw; exact hw ▸ h
  | succ fuel ih =>
    intro f b b' h hw
    unfold Machine.doublingCopy at hw
    split at hw
    · simp only [Option.bind_eq_bind, Option.bind_eq_some_iff] at hw
      obtain ⟨bs, _, b1, h1, h2⟩ := hw
      exact ih (h.memWrite h1) h2
    · cases hw; exact h

/-- FILL's storage operation continues the buffer (R142). -/
theorem Buffer.Sound.fillAll {b b' : Buffer} (hb : b.Sound) {pattern : List Byte} (h : b.fillAll pattern = some b') :
    b.Continues b' := by
  simp only [Buffer.fillAll, Option.bind_eq_bind, Option.bind_eq_some_iff] at h
  obtain ⟨b1, h1, h2⟩ := h
  exact ((Buffer.Continues.refl hb).memWrite h1).doublingCopy h2

/-- What the loop of R142 leaves, for a function g that repeats with period f from byte f on: when the prefix below f
holds g, every byte below the length comes to hold g, and no other byte changes. -/
theorem doublingCopy_spec (g : Nat → Byte) {fuel : Nat} :
    ∀ {f : Nat} {b : Buffer}, b.Sound → f ≤ b.len → (1 ≤ f ∨ f = b.len) → b.len - f ≤ fuel →
      (f < b.len → ∀ i, g (f + i) = g i) → (∀ i, i < f → b.byte i = g i) →
      ∃ b', doublingCopy fuel f b = some b' ∧ b.Continues b' ∧ (∀ i, i < b.len → b'.byte i = g i) ∧
        ∀ i, b.len ≤ i → b'.byte i = b.byte i := by
  induction fuel with
  | zero => exact fun hs hf _ hfuel _ hp => ⟨_, rfl, .refl hs, fun i hi => hp i (by omega), fun _ _ => rfl⟩
  | succ fuel ih =>
    intro f b hs hf h1 hfuel hg hp
    unfold doublingCopy
    by_cases hlt : f < b.len
    · have hr := Buffer.memRead_of_le (b := b) (a := 0) (n := min f (b.len - f)) (by omega)
      obtain ⟨b1, hw, hs1, hsh, hk⟩ :=
        hs.memWrite_of_le (a := f) (bs := b.bytesFrom 0 (min f (b.len - f))) (by simp; omega)
      have hl : b1.len = b.len := hsh.2.2.2
      have hin : ∀ i, i < f + min f (b.len - f) → b1.byte i = g i := by
        intro i hi
        rw [hk]
        split
        · rw [Buffer.bytesFrom_getElem?, if_pos (by omega), Option.getD_some, Nat.zero_add, hp _ (by omega), ← hg hlt,
            show f + (i - f) = i by omega]
        · exact hp i (by omega)
      have hout : ∀ i, b.len ≤ i → b1.byte i = b.byte i := by
        intro i hi
        rw [hk, if_pos (by omega), Buffer.bytesFrom_getElem?, if_neg (by omega)]
        rfl
      obtain ⟨b2, h2, hc, hb, ha⟩ := ih (f := f + min f (b.len - f)) hs1 (by omega) (by omega) (by omega)
        (fun h i => by rw [show min f (b.len - f) = f by omega, Nat.add_assoc, hg hlt, hg hlt]) hin
      refine ⟨b2, by simp [hlt, hr, hw, h2], ⟨hc.1, hsh.trans hc.2⟩, fun i hi => hb i (by omega), fun i hi => ?_⟩
      rw [ha i (by omega), hout i hi]
    · exact ⟨b, by simp [hlt], .refl hs, fun i hi => hp i (by omega), fun _ _ => rfl⟩

/-- FILL's storage operation answers: byte i below the length is byte i mod u of the pattern, every other byte as before
(R142, R143). -/
theorem Buffer.Sound.fillAll_spec {b : Buffer} (hs : b.Sound) {pattern : List Byte} (hp : pattern ≠ []) :
    ∃ b', b.fillAll pattern = some b' ∧ b.Continues b' ∧
      (∀ i, i < b.len → b'.byte i = (pattern[i % pattern.length]?).getD 0#8) ∧
      ∀ i, b.len ≤ i → b'.byte i = b.byte i := by
  have hu : 0 < pattern.length := List.length_pos_of_ne_nil hp
  obtain ⟨b1, hw, hs1, hsh, hk⟩ :=
    hs.memWrite_of_le (a := 0) (bs := pattern.take (min pattern.length b.len)) (by simp)
  have hl : b1.len = b.len := hsh.2.2.2
  obtain ⟨b2, h2, hc, hb, ha⟩ := doublingCopy_spec (fun i => (pattern[i % pattern.length]?).getD 0#8)
    (fuel := b.len) (f := min pattern.length b.len) hs1 (by omega) (by omega) (by omega)
    (fun h i => by simp [show min pattern.length b.len = pattern.length by omega])
    (fun i hi => by
      rw [hk, if_pos (Nat.zero_le i), Nat.sub_zero, List.getElem?_take_of_lt hi,
        Nat.mod_eq_of_lt (show i < pattern.length by omega), List.getElem?_eq_getElem (by omega)]
      rfl)
  refine ⟨b2, by simp [Buffer.fillAll, hw, h2], ⟨hc.1, hsh.trans hc.2⟩, fun i hi => hb i (by omega), fun i hi => ?_⟩
  rw [ha i (by omega), hk, if_pos (Nat.zero_le i), List.getElem?_take_eq_none (by omega)]
  rfl

/-- FILLRECT's pixel loop answers when every pixel of the list lies inside the storage. -/
theorem Buffer.Sound.fillPixels_answers {b : Buffer} (hb : b.Sound) {pixels : List (Nat × Nat)} (v : Packed)
    (h : ∀ p ∈ pixels, addressOf b.mode b.width p.1 p.2 + bytesTouched b.mode ≤ b.len) :
    ∃ b', b.fillPixels pixels v = some b' ∧ b.Continues b' := by
  refine foldlM_option_answers (P := b.Continues) pixels (fun c p hp hc => ?_) (.refl hb)
  obtain ⟨hm, hw, -, hl⟩ := hc.2
  obtain ⟨c', h1, h2, h3, -⟩ := hc.1.writePixel_of_le (x := p.1) (y := p.2) v (by rw [hm, hw, hl]; exact h p hp)
  exact ⟨c', h1, hc.trans ⟨h2, h3⟩⟩

/-- FILLRECT's pixel loop continues the buffer (R147). -/
theorem Buffer.Sound.fillPixels {b b' : Buffer} (hb : b.Sound) {pixels : List (Nat × Nat)} {v : Packed}
    (h : b.fillPixels pixels v = some b') : b.Continues b' :=
  foldlM_option_invariant (P := b.Continues) (fun _ _ _ hc hw => hc.writePixel hw) pixels (.refl hb) h

/-- BLIT's pixel loop continues the destination (R168). -/
theorem Buffer.Sound.copyPixels {d d' src : Buffer} (hd : d.Sound) {x y : Nat}
    (h : d.copyPixels src x y = some d') : d.Continues d' := by
  refine foldlM_option_invariant (P := d.Continues) (fun b p b' hc hw => ?_) _ (.refl hd) h
  simp only [Buffer.copyPixel, Option.bind_eq_bind, Option.bind_eq_some_iff] at hw
  obtain ⟨v, _, hw⟩ := hw
  exact hc.writePixel hw

/-- BLIT's pixel loop answers when every pixel it reads and every pixel it writes lies inside its storage. -/
theorem Buffer.Sound.copyPixels_answers {d src : Buffer} (hd : d.Sound) {x y : Nat}
    (hs : ∀ i r, src.inRange i r → addressOf src.mode src.width i r + bytesTouched src.mode ≤ src.len)
    (hw : ∀ i r, src.inRange i r → addressOf d.mode d.width (x + i) (y + r) + bytesTouched d.mode ≤ d.len) :
    ∃ d', d.copyPixels src x y = some d' ∧ d.Continues d' := by
  refine foldlM_option_answers (P := d.Continues) _ (fun c p hp hc => ?_) (.refl hd)
  have hr : src.inRange p.1 p.2 := by
    have := mem_rowMajor.1 hp
    exact ⟨by omega, by omega⟩
  obtain ⟨hm, hwd, -, hl⟩ := hc.2
  obtain ⟨c', h1, h2, h3, -⟩ := hc.1.writePixel_of_le (x := x + p.1) (y := y + p.2)
    (readMux src.mode (phaseOf p.1) (src.byte (addressOf src.mode src.width p.1 p.2))
      (src.byte (addressOf src.mode src.width p.1 p.2 + 1))) (by rw [hm, hwd, hl]; exact hw _ _ hr)
  exact ⟨c', by simp [Buffer.copyPixel, Buffer.readPixel_of_le (hs _ _ hr), h1], hc.trans ⟨h2, h3⟩⟩

/-- BLIT's row copies continue the destination (R166, R167). -/
theorem Buffer.Sound.copyRows {d d' src : Buffer} (hd : d.Sound) {x y : Nat}
    (h : d.copyRows src x y = some d') : d.Continues d' := by
  refine foldlM_option_invariant (P := d.Continues) (fun b r b' hc hw => ?_) _ (.refl hd) h
  simp only [Buffer.copyRow, Option.bind_eq_bind, Option.bind_eq_some_iff] at hw
  obtain ⟨bs, _, hw⟩ := hw
  exact hc.memWrite hw

/-- BLIT's storage operation continues the destination, on either path (R170). -/
theorem Buffer.Sound.blitFrom {d d' src : Buffer} (hd : d.Sound) {x y : Nat}
    (h : d.blitFrom src x y = some d') : d.Continues d' := by
  unfold Buffer.blitFrom at h
  split at h
  · exact hd.copyRows h
  · exact hd.copyPixels h

end Sys2Proof.Machine
end

