-- ==== Sys2Proof/Laws/State.lean ====
section
/-! SUPPORT. One lemma per field per update of State, each true by rfl, so that no later proof unfolds a record update. -/

namespace Sys2Proof.Machine

variable (s : State)

/-! ## State.raise -/

@[simp] theorem State.raise_params (c : StatusCode) : (s.raise c).params = s.params := rfl
@[simp] theorem State.raise_program (c : StatusCode) : (s.raise c).program = s.program := rfl
@[simp] theorem State.raise_index (c : StatusCode) : (s.raise c).index = s.index := rfl
@[simp] theorem State.raise_readData (c : StatusCode) : (s.raise c).readData = s.readData := rfl
@[simp] theorem State.raise_cmd (c : StatusCode) : (s.raise c).cmd = s.cmd := rfl
@[simp] theorem State.raise_code (c : StatusCode) : (s.raise c).code = c := rfl
@[simp] theorem State.raise_errSeen (c : StatusCode) : (s.raise c).errSeen = true := rfl
@[simp] theorem State.raise_opx (c : StatusCode) : (s.raise c).opx = s.opx := rfl
@[simp] theorem State.raise_opy (c : StatusCode) : (s.raise c).opy = s.opy := rfl
@[simp] theorem State.raise_opw (c : StatusCode) : (s.raise c).opw = s.opw := rfl
@[simp] theorem State.raise_oph (c : StatusCode) : (s.raise c).oph = s.oph := rfl
@[simp] theorem State.raise_opv (c : StatusCode) : (s.raise c).opv = s.opv := rfl
@[simp] theorem State.raise_opi (c : StatusCode) : (s.raise c).opi = s.opi := rfl
@[simp] theorem State.raise_opb (c : StatusCode) : (s.raise c).opb = s.opb := rfl
@[simp] theorem State.raise_resVal (c : StatusCode) : (s.raise c).resVal = s.resVal := rfl
@[simp] theorem State.raise_resRgb (c : StatusCode) : (s.raise c).resRgb = s.resRgb := rfl
@[simp] theorem State.raise_resAddr (c : StatusCode) : (s.raise c).resAddr = s.resAddr := rfl
@[simp] theorem State.raise_resInfo (c : StatusCode) : (s.raise c).resInfo = s.resInfo := rfl
@[simp] theorem State.raise_resByte (c : StatusCode) : (s.raise c).resByte = s.resByte := rfl
@[simp] theorem State.raise_slot (c : StatusCode) (k : Slot) : (s.raise c).slot k = s.slot k := by cases k <;> rfl
@[simp] theorem State.raise_slot0 (c : StatusCode) : (s.raise c).slot0 = s.slot0 := rfl
@[simp] theorem State.raise_slot1 (c : StatusCode) : (s.raise c).slot1 = s.slot1 := rfl

/-! ## State.complete -/

@[simp] theorem State.complete_params : (s.complete).params = s.params := rfl
@[simp] theorem State.complete_program : (s.complete).program = s.program := rfl
@[simp] theorem State.complete_index : (s.complete).index = s.index := rfl
@[simp] theorem State.complete_readData : (s.complete).readData = s.readData := rfl
@[simp] theorem State.complete_cmd : (s.complete).cmd = s.cmd := rfl
@[simp] theorem State.complete_code : (s.complete).code = .ok := rfl
@[simp] theorem State.complete_errSeen : (s.complete).errSeen = s.errSeen := rfl
@[simp] theorem State.complete_opx : (s.complete).opx = s.opx := rfl
@[simp] theorem State.complete_opy : (s.complete).opy = s.opy := rfl
@[simp] theorem State.complete_opw : (s.complete).opw = s.opw := rfl
@[simp] theorem State.complete_oph : (s.complete).oph = s.oph := rfl
@[simp] theorem State.complete_opv : (s.complete).opv = s.opv := rfl
@[simp] theorem State.complete_opi : (s.complete).opi = s.opi := rfl
@[simp] theorem State.complete_opb : (s.complete).opb = s.opb := rfl
@[simp] theorem State.complete_resVal : (s.complete).resVal = s.resVal := rfl
@[simp] theorem State.complete_resRgb : (s.complete).resRgb = s.resRgb := rfl
@[simp] theorem State.complete_resAddr : (s.complete).resAddr = s.resAddr := rfl
@[simp] theorem State.complete_resInfo : (s.complete).resInfo = s.resInfo := rfl
@[simp] theorem State.complete_resByte : (s.complete).resByte = s.resByte := rfl
@[simp] theorem State.complete_slot (k : Slot) : (s.complete).slot k = s.slot k := by cases k <;> rfl
@[simp] theorem State.complete_slot0 : (s.complete).slot0 = s.slot0 := rfl
@[simp] theorem State.complete_slot1 : (s.complete).slot1 = s.slot1 := rfl

/-! ## State.advance -/

@[simp] theorem State.advance_params : (s.advance).params = s.params := rfl
@[simp] theorem State.advance_program : (s.advance).program = s.program := rfl
@[simp] theorem State.advance_index : (s.advance).index = s.index + 1 := rfl
@[simp] theorem State.advance_readData : (s.advance).readData = s.readData := rfl
@[simp] theorem State.advance_cmd : (s.advance).cmd = s.cmd := rfl
@[simp] theorem State.advance_code : (s.advance).code = s.code := rfl
@[simp] theorem State.advance_errSeen : (s.advance).errSeen = s.errSeen := rfl
@[simp] theorem State.advance_opx : (s.advance).opx = s.opx := rfl
@[simp] theorem State.advance_opy : (s.advance).opy = s.opy := rfl
@[simp] theorem State.advance_opw : (s.advance).opw = s.opw := rfl
@[simp] theorem State.advance_oph : (s.advance).oph = s.oph := rfl
@[simp] theorem State.advance_opv : (s.advance).opv = s.opv := rfl
@[simp] theorem State.advance_opi : (s.advance).opi = s.opi := rfl
@[simp] theorem State.advance_opb : (s.advance).opb = s.opb := rfl
@[simp] theorem State.advance_resVal : (s.advance).resVal = s.resVal := rfl
@[simp] theorem State.advance_resRgb : (s.advance).resRgb = s.resRgb := rfl
@[simp] theorem State.advance_resAddr : (s.advance).resAddr = s.resAddr := rfl
@[simp] theorem State.advance_resInfo : (s.advance).resInfo = s.resInfo := rfl
@[simp] theorem State.advance_resByte : (s.advance).resByte = s.resByte := rfl
@[simp] theorem State.advance_slot (k : Slot) : (s.advance).slot k = s.slot k := by cases k <;> rfl
@[simp] theorem State.advance_slot0 : (s.advance).slot0 = s.slot0 := rfl
@[simp] theorem State.advance_slot1 : (s.advance).slot1 = s.slot1 := rfl

/-! ## State.setReadData -/

@[simp] theorem State.setReadData_params (w : Word) : (s.setReadData w).params = s.params := rfl
@[simp] theorem State.setReadData_program (w : Word) : (s.setReadData w).program = s.program := rfl
@[simp] theorem State.setReadData_index (w : Word) : (s.setReadData w).index = s.index := rfl
@[simp] theorem State.setReadData_readData (w : Word) : (s.setReadData w).readData = some w := rfl
@[simp] theorem State.setReadData_cmd (w : Word) : (s.setReadData w).cmd = s.cmd := rfl
@[simp] theorem State.setReadData_code (w : Word) : (s.setReadData w).code = s.code := rfl
@[simp] theorem State.setReadData_errSeen (w : Word) : (s.setReadData w).errSeen = s.errSeen := rfl
@[simp] theorem State.setReadData_opx (w : Word) : (s.setReadData w).opx = s.opx := rfl
@[simp] theorem State.setReadData_opy (w : Word) : (s.setReadData w).opy = s.opy := rfl
@[simp] theorem State.setReadData_opw (w : Word) : (s.setReadData w).opw = s.opw := rfl
@[simp] theorem State.setReadData_oph (w : Word) : (s.setReadData w).oph = s.oph := rfl
@[simp] theorem State.setReadData_opv (w : Word) : (s.setReadData w).opv = s.opv := rfl
@[simp] theorem State.setReadData_opi (w : Word) : (s.setReadData w).opi = s.opi := rfl
@[simp] theorem State.setReadData_opb (w : Word) : (s.setReadData w).opb = s.opb := rfl
@[simp] theorem State.setReadData_resVal (w : Word) : (s.setReadData w).resVal = s.resVal := rfl
@[simp] theorem State.setReadData_resRgb (w : Word) : (s.setReadData w).resRgb = s.resRgb := rfl
@[simp] theorem State.setReadData_resAddr (w : Word) : (s.setReadData w).resAddr = s.resAddr := rfl
@[simp] theorem State.setReadData_resInfo (w : Word) : (s.setReadData w).resInfo = s.resInfo := rfl
@[simp] theorem State.setReadData_resByte (w : Word) : (s.setReadData w).resByte = s.resByte := rfl
@[simp] theorem State.setReadData_slot (w : Word) (k : Slot) : (s.setReadData w).slot k = s.slot k := by cases k <;> rfl
@[simp] theorem State.setReadData_slot0 (w : Word) : (s.setReadData w).slot0 = s.slot0 := rfl
@[simp] theorem State.setReadData_slot1 (w : Word) : (s.setReadData w).slot1 = s.slot1 := rfl

/-! ## State.setAccess -/

@[simp] theorem State.setAccess_params (a i : Word) : (s.setAccess a i).params = s.params := rfl
@[simp] theorem State.setAccess_program (a i : Word) : (s.setAccess a i).program = s.program := rfl
@[simp] theorem State.setAccess_index (a i : Word) : (s.setAccess a i).index = s.index := rfl
@[simp] theorem State.setAccess_readData (a i : Word) : (s.setAccess a i).readData = s.readData := rfl
@[simp] theorem State.setAccess_cmd (a i : Word) : (s.setAccess a i).cmd = s.cmd := rfl
@[simp] theorem State.setAccess_code (a i : Word) : (s.setAccess a i).code = s.code := rfl
@[simp] theorem State.setAccess_errSeen (a i : Word) : (s.setAccess a i).errSeen = s.errSeen := rfl
@[simp] theorem State.setAccess_opx (a i : Word) : (s.setAccess a i).opx = s.opx := rfl
@[simp] theorem State.setAccess_opy (a i : Word) : (s.setAccess a i).opy = s.opy := rfl
@[simp] theorem State.setAccess_opw (a i : Word) : (s.setAccess a i).opw = s.opw := rfl
@[simp] theorem State.setAccess_oph (a i : Word) : (s.setAccess a i).oph = s.oph := rfl
@[simp] theorem State.setAccess_opv (a i : Word) : (s.setAccess a i).opv = s.opv := rfl
@[simp] theorem State.setAccess_opi (a i : Word) : (s.setAccess a i).opi = s.opi := rfl
@[simp] theorem State.setAccess_opb (a i : Word) : (s.setAccess a i).opb = s.opb := rfl
@[simp] theorem State.setAccess_resVal (a i : Word) : (s.setAccess a i).resVal = s.resVal := rfl
@[simp] theorem State.setAccess_resRgb (a i : Word) : (s.setAccess a i).resRgb = s.resRgb := rfl
@[simp] theorem State.setAccess_resAddr (a i : Word) : (s.setAccess a i).resAddr = a := rfl
@[simp] theorem State.setAccess_resInfo (a i : Word) : (s.setAccess a i).resInfo = i := rfl
@[simp] theorem State.setAccess_resByte (a i : Word) : (s.setAccess a i).resByte = s.resByte := rfl
@[simp] theorem State.setAccess_slot (a i : Word) (k : Slot) : (s.setAccess a i).slot k = s.slot k := by cases k <;> rfl
@[simp] theorem State.setAccess_slot0 (a i : Word) : (s.setAccess a i).slot0 = s.slot0 := rfl
@[simp] theorem State.setAccess_slot1 (a i : Word) : (s.setAccess a i).slot1 = s.slot1 := rfl

/-! ## State.setPixel -/

@[simp] theorem State.setPixel_params (v c : Word) : (s.setPixel v c).params = s.params := rfl
@[simp] theorem State.setPixel_program (v c : Word) : (s.setPixel v c).program = s.program := rfl
@[simp] theorem State.setPixel_index (v c : Word) : (s.setPixel v c).index = s.index := rfl
@[simp] theorem State.setPixel_readData (v c : Word) : (s.setPixel v c).readData = s.readData := rfl
@[simp] theorem State.setPixel_cmd (v c : Word) : (s.setPixel v c).cmd = s.cmd := rfl
@[simp] theorem State.setPixel_code (v c : Word) : (s.setPixel v c).code = s.code := rfl
@[simp] theorem State.setPixel_errSeen (v c : Word) : (s.setPixel v c).errSeen = s.errSeen := rfl
@[simp] theorem State.setPixel_opx (v c : Word) : (s.setPixel v c).opx = s.opx := rfl
@[simp] theorem State.setPixel_opy (v c : Word) : (s.setPixel v c).opy = s.opy := rfl
@[simp] theorem State.setPixel_opw (v c : Word) : (s.setPixel v c).opw = s.opw := rfl
@[simp] theorem State.setPixel_oph (v c : Word) : (s.setPixel v c).oph = s.oph := rfl
@[simp] theorem State.setPixel_opv (v c : Word) : (s.setPixel v c).opv = s.opv := rfl
@[simp] theorem State.setPixel_opi (v c : Word) : (s.setPixel v c).opi = s.opi := rfl
@[simp] theorem State.setPixel_opb (v c : Word) : (s.setPixel v c).opb = s.opb := rfl
@[simp] theorem State.setPixel_resVal (v c : Word) : (s.setPixel v c).resVal = v := rfl
@[simp] theorem State.setPixel_resRgb (v c : Word) : (s.setPixel v c).resRgb = c := rfl
@[simp] theorem State.setPixel_resAddr (v c : Word) : (s.setPixel v c).resAddr = s.resAddr := rfl
@[simp] theorem State.setPixel_resInfo (v c : Word) : (s.setPixel v c).resInfo = s.resInfo := rfl
@[simp] theorem State.setPixel_resByte (v c : Word) : (s.setPixel v c).resByte = s.resByte := rfl
@[simp] theorem State.setPixel_slot (v c : Word) (k : Slot) : (s.setPixel v c).slot k = s.slot k := by cases k <;> rfl
@[simp] theorem State.setPixel_slot0 (v c : Word) : (s.setPixel v c).slot0 = s.slot0 := rfl
@[simp] theorem State.setPixel_slot1 (v c : Word) : (s.setPixel v c).slot1 = s.slot1 := rfl

/-! ## State.setByte -/

@[simp] theorem State.setByte_params (w : Word) : (s.setByte w).params = s.params := rfl
@[simp] theorem State.setByte_program (w : Word) : (s.setByte w).program = s.program := rfl
@[simp] theorem State.setByte_index (w : Word) : (s.setByte w).index = s.index := rfl
@[simp] theorem State.setByte_readData (w : Word) : (s.setByte w).readData = s.readData := rfl
@[simp] theorem State.setByte_cmd (w : Word) : (s.setByte w).cmd = s.cmd := rfl
@[simp] theorem State.setByte_code (w : Word) : (s.setByte w).code = s.code := rfl
@[simp] theorem State.setByte_errSeen (w : Word) : (s.setByte w).errSeen = s.errSeen := rfl
@[simp] theorem State.setByte_opx (w : Word) : (s.setByte w).opx = s.opx := rfl
@[simp] theorem State.setByte_opy (w : Word) : (s.setByte w).opy = s.opy := rfl
@[simp] theorem State.setByte_opw (w : Word) : (s.setByte w).opw = s.opw := rfl
@[simp] theorem State.setByte_oph (w : Word) : (s.setByte w).oph = s.oph := rfl
@[simp] theorem State.setByte_opv (w : Word) : (s.setByte w).opv = s.opv := rfl
@[simp] theorem State.setByte_opi (w : Word) : (s.setByte w).opi = s.opi := rfl
@[simp] theorem State.setByte_opb (w : Word) : (s.setByte w).opb = s.opb := rfl
@[simp] theorem State.setByte_resVal (w : Word) : (s.setByte w).resVal = s.resVal := rfl
@[simp] theorem State.setByte_resRgb (w : Word) : (s.setByte w).resRgb = s.resRgb := rfl
@[simp] theorem State.setByte_resAddr (w : Word) : (s.setByte w).resAddr = s.resAddr := rfl
@[simp] theorem State.setByte_resInfo (w : Word) : (s.setByte w).resInfo = s.resInfo := rfl
@[simp] theorem State.setByte_resByte (w : Word) : (s.setByte w).resByte = w := rfl
@[simp] theorem State.setByte_slot (w : Word) (k : Slot) : (s.setByte w).slot k = s.slot k := by cases k <;> rfl
@[simp] theorem State.setByte_slot0 (w : Word) : (s.setByte w).slot0 = s.slot0 := rfl
@[simp] theorem State.setByte_slot1 (w : Word) : (s.setByte w).slot1 = s.slot1 := rfl

/-! ## State.setSlot -/

@[simp] theorem State.setSlot_params (sel : Slot) (b : Buffer) : (s.setSlot sel b).params = s.params := by cases sel <;> rfl
@[simp] theorem State.setSlot_program (sel : Slot) (b : Buffer) : (s.setSlot sel b).program = s.program := by cases sel <;> rfl
@[simp] theorem State.setSlot_index (sel : Slot) (b : Buffer) : (s.setSlot sel b).index = s.index := by cases sel <;> rfl
@[simp] theorem State.setSlot_readData (sel : Slot) (b : Buffer) : (s.setSlot sel b).readData = s.readData := by cases sel <;> rfl
@[simp] theorem State.setSlot_cmd (sel : Slot) (b : Buffer) : (s.setSlot sel b).cmd = s.cmd := by cases sel <;> rfl
@[simp] theorem State.setSlot_code (sel : Slot) (b : Buffer) : (s.setSlot sel b).code = s.code := by cases sel <;> rfl
@[simp] theorem State.setSlot_errSeen (sel : Slot) (b : Buffer) : (s.setSlot sel b).errSeen = s.errSeen := by cases sel <;> rfl
@[simp] theorem State.setSlot_opx (sel : Slot) (b : Buffer) : (s.setSlot sel b).opx = s.opx := by cases sel <;> rfl
@[simp] theorem State.setSlot_opy (sel : Slot) (b : Buffer) : (s.setSlot sel b).opy = s.opy := by cases sel <;> rfl
@[simp] theorem State.setSlot_opw (sel : Slot) (b : Buffer) : (s.setSlot sel b).opw = s.opw := by cases sel <;> rfl
@[simp] theorem State.setSlot_oph (sel : Slot) (b : Buffer) : (s.setSlot sel b).oph = s.oph := by cases sel <;> rfl
@[simp] theorem State.setSlot_opv (sel : Slot) (b : Buffer) : (s.setSlot sel b).opv = s.opv := by cases sel <;> rfl
@[simp] theorem State.setSlot_opi (sel : Slot) (b : Buffer) : (s.setSlot sel b).opi = s.opi := by cases sel <;> rfl
@[simp] theorem State.setSlot_opb (sel : Slot) (b : Buffer) : (s.setSlot sel b).opb = s.opb := by cases sel <;> rfl
@[simp] theorem State.setSlot_resVal (sel : Slot) (b : Buffer) : (s.setSlot sel b).resVal = s.resVal := by cases sel <;> rfl
@[simp] theorem State.setSlot_resRgb (sel : Slot) (b : Buffer) : (s.setSlot sel b).resRgb = s.resRgb := by cases sel <;> rfl
@[simp] theorem State.setSlot_resAddr (sel : Slot) (b : Buffer) : (s.setSlot sel b).resAddr = s.resAddr := by cases sel <;> rfl
@[simp] theorem State.setSlot_resInfo (sel : Slot) (b : Buffer) : (s.setSlot sel b).resInfo = s.resInfo := by cases sel <;> rfl
@[simp] theorem State.setSlot_resByte (sel : Slot) (b : Buffer) : (s.setSlot sel b).resByte = s.resByte := by cases sel <;> rfl
/-- The slot just written holds the buffer written. -/
@[simp] theorem State.setSlot_slot_same (sel : Slot) (b : Buffer) : (s.setSlot sel b).slot sel = some b := by
  cases sel <;> rfl

/-- Writing a slot leaves the other slot alone (R65). -/
@[simp] theorem State.setSlot_slot_other (sel : Slot) (b : Buffer) :
    (s.setSlot sel b).slot (otherSlot sel) = s.slot (otherSlot sel) := by
  cases sel <;> rfl

theorem State.setSlot_slot (sel k : Slot) (b : Buffer) :
    (s.setSlot sel b).slot k = if k = sel then some b else s.slot k := by
  cases sel <;> cases k <;> rfl

/-! ## State.platformReset -/

@[simp] theorem State.platformReset_params : (s.platformReset).params = s.params := rfl
@[simp] theorem State.platformReset_program : (s.platformReset).program = s.program := rfl
@[simp] theorem State.platformReset_index : (s.platformReset).index = s.index := rfl
@[simp] theorem State.platformReset_readData : (s.platformReset).readData = s.readData := rfl
@[simp] theorem State.platformReset_cmd : (s.platformReset).cmd = 0 := rfl
@[simp] theorem State.platformReset_code : (s.platformReset).code = .ok := rfl
@[simp] theorem State.platformReset_errSeen : (s.platformReset).errSeen = false := rfl
@[simp] theorem State.platformReset_opx : (s.platformReset).opx = 0 := rfl
@[simp] theorem State.platformReset_opy : (s.platformReset).opy = 0 := rfl
@[simp] theorem State.platformReset_opw : (s.platformReset).opw = 0 := rfl
@[simp] theorem State.platformReset_oph : (s.platformReset).oph = 0 := rfl
@[simp] theorem State.platformReset_opv : (s.platformReset).opv = 0 := rfl
@[simp] theorem State.platformReset_opi : (s.platformReset).opi = 0 := rfl
@[simp] theorem State.platformReset_opb : (s.platformReset).opb = 0 := rfl
@[simp] theorem State.platformReset_resVal : (s.platformReset).resVal = 0 := rfl
@[simp] theorem State.platformReset_resRgb : (s.platformReset).resRgb = 0 := rfl
@[simp] theorem State.platformReset_resAddr : (s.platformReset).resAddr = 0 := rfl
@[simp] theorem State.platformReset_resInfo : (s.platformReset).resInfo = 0 := rfl
@[simp] theorem State.platformReset_resByte : (s.platformReset).resByte = 0 := rfl
@[simp] theorem State.platformReset_slot (k : Slot) : s.platformReset.slot k = none := by cases k <;> rfl
@[simp] theorem State.platformReset_slot0 : s.platformReset.slot0 = none := rfl
@[simp] theorem State.platformReset_slot1 : s.platformReset.slot1 = none := rfl

/-! ## State.recordAccess -/

@[simp] theorem State.recordAccess_params (b : Buffer) (x y : Nat) :
    (s.recordAccess b x y).params = s.params := rfl
@[simp] theorem State.recordAccess_program (b : Buffer) (x y : Nat) :
    (s.recordAccess b x y).program = s.program := rfl
@[simp] theorem State.recordAccess_index (b : Buffer) (x y : Nat) :
    (s.recordAccess b x y).index = s.index := rfl
@[simp] theorem State.recordAccess_readData (b : Buffer) (x y : Nat) :
    (s.recordAccess b x y).readData = s.readData := rfl
@[simp] theorem State.recordAccess_cmd (b : Buffer) (x y : Nat) :
    (s.recordAccess b x y).cmd = s.cmd := rfl
@[simp] theorem State.recordAccess_code (b : Buffer) (x y : Nat) :
    (s.recordAccess b x y).code = s.code := rfl
@[simp] theorem State.recordAccess_errSeen (b : Buffer) (x y : Nat) :
    (s.recordAccess b x y).errSeen = s.errSeen := rfl
@[simp] theorem State.recordAccess_opx (b : Buffer) (x y : Nat) :
    (s.recordAccess b x y).opx = s.opx := rfl
@[simp] theorem State.recordAccess_opy (b : Buffer) (x y : Nat) :
    (s.recordAccess b x y).opy = s.opy := rfl
@[simp] theorem State.recordAccess_opw (b : Buffer) (x y : Nat) :
    (s.recordAccess b x y).opw = s.opw := rfl
@[simp] theorem State.recordAccess_oph (b : Buffer) (x y : Nat) :
    (s.recordAccess b x y).oph = s.oph := rfl
@[simp] theorem State.recordAccess_opv (b : Buffer) (x y : Nat) :
    (s.recordAccess b x y).opv = s.opv := rfl
@[simp] theorem State.recordAccess_opi (b : Buffer) (x y : Nat) :
    (s.recordAccess b x y).opi = s.opi := rfl
@[simp] theorem State.recordAccess_opb (b : Buffer) (x y : Nat) :
    (s.recordAccess b x y).opb = s.opb := rfl
@[simp] theorem State.recordAccess_resVal (b : Buffer) (x y : Nat) :
    (s.recordAccess b x y).resVal = s.resVal := rfl
@[simp] theorem State.recordAccess_resRgb (b : Buffer) (x y : Nat) :
    (s.recordAccess b x y).resRgb = s.resRgb := rfl
@[simp] theorem State.recordAccess_resAddr (b : Buffer) (x y : Nat) :
    (s.recordAccess b x y).resAddr = regOfNat (addressOf b.mode b.width x y) := rfl
@[simp] theorem State.recordAccess_resInfo (b : Buffer) (x y : Nat) :
    (s.recordAccess b x y).resInfo = infoWord b.mode x := rfl
@[simp] theorem State.recordAccess_resByte (b : Buffer) (x y : Nat) :
    (s.recordAccess b x y).resByte = s.resByte := rfl
@[simp] theorem State.recordAccess_slot (b : Buffer) (x y : Nat) (k : Slot) :
    (s.recordAccess b x y).slot k = s.slot k := by cases k <;> rfl
@[simp] theorem State.recordAccess_slot0 (b : Buffer) (x y : Nat) : (s.recordAccess b x y).slot0 = s.slot0 := rfl
@[simp] theorem State.recordAccess_slot1 (b : Buffer) (x y : Nat) : (s.recordAccess b x y).slot1 = s.slot1 := rfl

/-! ## State.writeReg: what is no writable register stays -/

@[simp] theorem State.writeReg_params (r : RegName) (w : Word) : (s.writeReg r w).params = s.params := by cases r <;> rfl
@[simp] theorem State.writeReg_program (r : RegName) (w : Word) : (s.writeReg r w).program = s.program := by cases r <;> rfl
@[simp] theorem State.writeReg_index (r : RegName) (w : Word) : (s.writeReg r w).index = s.index := by cases r <;> rfl
@[simp] theorem State.writeReg_readData (r : RegName) (w : Word) : (s.writeReg r w).readData = s.readData := by cases r <;> rfl
@[simp] theorem State.writeReg_code (r : RegName) (w : Word) : (s.writeReg r w).code = s.code := by cases r <;> rfl
@[simp] theorem State.writeReg_errSeen (r : RegName) (w : Word) : (s.writeReg r w).errSeen = s.errSeen := by cases r <;> rfl
@[simp] theorem State.writeReg_resVal (r : RegName) (w : Word) : (s.writeReg r w).resVal = s.resVal := by cases r <;> rfl
@[simp] theorem State.writeReg_resRgb (r : RegName) (w : Word) : (s.writeReg r w).resRgb = s.resRgb := by cases r <;> rfl
@[simp] theorem State.writeReg_resAddr (r : RegName) (w : Word) : (s.writeReg r w).resAddr = s.resAddr := by cases r <;> rfl
@[simp] theorem State.writeReg_resInfo (r : RegName) (w : Word) : (s.writeReg r w).resInfo = s.resInfo := by cases r <;> rfl
@[simp] theorem State.writeReg_resByte (r : RegName) (w : Word) : (s.writeReg r w).resByte = s.resByte := by cases r <;> rfl
@[simp] theorem State.writeReg_slot0 (r : RegName) (w : Word) : (s.writeReg r w).slot0 = s.slot0 := by cases r <;> rfl
@[simp] theorem State.writeReg_slot1 (r : RegName) (w : Word) : (s.writeReg r w).slot1 = s.slot1 := by cases r <;> rfl
@[simp] theorem State.writeReg_slot (r : RegName) (w : Word) (k : Slot) : (s.writeReg r w).slot k = s.slot k := by
  cases r <;> cases k <;> rfl

/-! ## State.writeReg at CMD -/

@[simp] theorem State.writeCmd_cmd (w : Word) : (s.writeReg .cmd w).cmd = w := rfl
@[simp] theorem State.writeCmd_opx (w : Word) : (s.writeReg .cmd w).opx = s.opx := rfl
@[simp] theorem State.writeCmd_opy (w : Word) : (s.writeReg .cmd w).opy = s.opy := rfl
@[simp] theorem State.writeCmd_opw (w : Word) : (s.writeReg .cmd w).opw = s.opw := rfl
@[simp] theorem State.writeCmd_oph (w : Word) : (s.writeReg .cmd w).oph = s.oph := rfl
@[simp] theorem State.writeCmd_opv (w : Word) : (s.writeReg .cmd w).opv = s.opv := rfl
@[simp] theorem State.writeCmd_opi (w : Word) : (s.writeReg .cmd w).opi = s.opi := rfl
@[simp] theorem State.writeCmd_opb (w : Word) : (s.writeReg .cmd w).opb = s.opb := rfl

/-! ## Slots -/

@[simp] theorem otherSlot_otherSlot (sel : Slot) : otherSlot (otherSlot sel) = sel := by cases sel <;> rfl

@[simp] theorem otherSlot_ne (sel : Slot) : otherSlot sel ≠ sel := by cases sel <;> decide

@[simp] theorem ne_otherSlot (sel : Slot) : sel ≠ otherSlot sel := by cases sel <;> decide

/-- A slot is SEL or the other one. -/
theorem Slot.eq_or_eq_other (k sel : Slot) : k = sel ∨ k = otherSlot sel := by
  cases k <;> cases sel <;> simp [otherSlot]

@[simp] theorem State.slot_s0 : s.slot .s0 = s.slot0 := rfl

@[simp] theorem State.slot_s1 : s.slot .s1 = s.slot1 := rfl

end Sys2Proof.Machine
end

