-- ==== Sys2Proof/Laws/Exec.lean ====
section
/-! SUPPORT. What a command can do, said once per command: it raises one code and changes STATUS alone, or it completes
with the change its rule gives. The laws of the shared checks come first. -/

namespace Sys2Proof.Machine

variable {s t : State} {sel : Slot}

/-! ## The shared checks and endings -/

theorem withBuffer_none {k : Buffer → Result} (h : s.slot sel = none) :
    withBuffer s sel k = .next (s.raise .notConfigured) := by simp [withBuffer, h]

theorem withBuffer_some {k : Buffer → Result} {b : Buffer} (h : s.slot sel = some b) : withBuffer s sel k = k b := by
  simp [withBuffer, h]

theorem withBuffer_eq_next {k : Buffer → Result} (h : withBuffer s sel k = .next t) :
    (s.slot sel = none ∧ t = s.raise .notConfigured) ∨ ∃ b, s.slot sel = some b ∧ k b = .next t := by
  cases hb : s.slot sel with
  | none => rw [withBuffer_none hb] at h; cases h; simp
  | some b => rw [withBuffer_some hb] at h; exact .inr ⟨b, rfl, h⟩

@[simp] theorem withStored_some {α : Type} (a : α) (k : α → State) : withStored (some a) k = .next (k a).complete := rfl

@[simp] theorem withStored_none {α : Type} (k : α → State) : withStored none k = .fault .storageIndex := rfl

theorem withStored_eq_next {α : Type} {r : Option α} {k : α → State} (h : withStored r k = .next t) :
    ∃ a, r = some a ∧ t = (k a).complete := by
  cases r with
  | none => cases h
  | some a => cases h; exact ⟨a, rfl, rfl⟩

/-- A command that ends with what the storage answered refuses nothing. -/
@[simp] theorem withStored_ne_refused {α : Type} (r : Option α) (k : α → State) (x : Refusal) :
    withStored r k ≠ .refused x := by cases r <;> simp [withStored]

/-- The coordinate in OPX and OPY is a pixel of the buffer (R121). -/
abbrev State.pixelIn (s : State) (b : Buffer) : Prop :=
  (0 ≤ s.operandX ∧ 0 ≤ s.operandY) ∧ b.inRange s.operandX.toNat s.operandY.toNat

theorem withPixel_of_inRange {k : Buffer → Nat → Nat → Result} {b : Buffer} (h : s.slot sel = some b)
    (hx : 0 ≤ s.operandX ∧ s.operandX < b.width) (hy : 0 ≤ s.operandY ∧ s.operandY < b.height) :
    withPixel s sel k = k b s.operandX.toNat s.operandY.toNat := by
  simp [withPixel, withBuffer_some h, hx, hy]

theorem withPixel_eq_next {k : Buffer → Nat → Nat → Result} (h : withPixel s sel k = .next t) :
    (s.slot sel = none ∧ t = s.raise .notConfigured) ∨
    ∃ b, s.slot sel = some b ∧
      (t = s.raise .coordFault ∨
        s.pixelIn b ∧ k b s.operandX.toNat s.operandY.toNat = .next t) := by
  rcases withBuffer_eq_next h with h | ⟨b, hb, h⟩
  · exact .inl h
  · refine .inr ⟨b, hb, ?_⟩
    split at h
    · rename_i hr
      exact .inr ⟨⟨⟨by omega, by omega⟩, by omega, by omega⟩, h⟩
    · cases h; exact .inl rfl

/-! ## One inversion lemma per command -/

/-- ADDR completes with RES_ADDR and RES_INFO written, or raises (R122). -/
theorem execAddr_next (h : execAddr sel s = .next t) :
    t = s.raise .notConfigured ∨ t = s.raise .coordFault ∨
    ∃ b, s.slot sel = some b ∧ s.pixelIn b ∧
      t = (s.recordAccess b s.operandX.toNat s.operandY.toNat).complete := by
  rcases withPixel_eq_next h with ⟨-, h⟩ | ⟨b, hb, h | ⟨hr, h⟩⟩
  · exact .inl h
  · exact .inr (.inl h)
  · cases h; exact .inr (.inr ⟨b, hb, hr, rfl⟩)

/-- GETPX completes with four result registers written, or raises (R123). -/
theorem execGetpx_next (h : execGetpx sel s = .next t) :
    t = s.raise .notConfigured ∨ t = s.raise .coordFault ∨
    ∃ b v, s.slot sel = some b ∧ s.pixelIn b ∧
      b.readPixel s.operandX.toNat s.operandY.toNat = some v ∧
      t = ((s.setPixel (v.setWidth 32) (rgbWord (expandColour b.mode v))).recordAccess b s.operandX.toNat
        s.operandY.toNat).complete := by
  rcases withPixel_eq_next h with ⟨-, h⟩ | ⟨b, hb, h | ⟨hr, h⟩⟩
  · exact .inl h
  · exact .inr (.inl h)
  · obtain ⟨v, hv, ht⟩ := withStored_eq_next h
    exact .inr (.inr ⟨b, v, hb, hr, hv, ht⟩)

/-- SETPX completes with the pixel written and RES_ADDR and RES_INFO, or raises (R124). -/
theorem execSetpx_next (h : execSetpx sel s = .next t) :
    t = s.raise .notConfigured ∨ t = s.raise .coordFault ∨
    ∃ b b', s.slot sel = some b ∧ s.pixelIn b ∧
      b.writePixel s.operandX.toNat s.operandY.toNat (s.operandV b.mode) = some b' ∧
      t = ((s.setSlot sel b').recordAccess b s.operandX.toNat s.operandY.toNat).complete := by
  rcases withPixel_eq_next h with ⟨-, h⟩ | ⟨b, hb, h | ⟨hr, h⟩⟩
  · exact .inl h
  · exact .inr (.inl h)
  · obtain ⟨b', hb', ht⟩ := withStored_eq_next h
    exact .inr (.inr ⟨b, b', hb, hr, hb', ht⟩)

/-- FILL completes with the slot's storage filled, or raises (R144). -/
theorem execFill_next (h : execFill sel s = .next t) :
    t = s.raise .notConfigured ∨
    ∃ b b', s.slot sel = some b ∧ b.fillAll (fillPattern b.mode (s.operandV b.mode)) = some b' ∧
      t = (s.setSlot sel b').complete := by
  rcases withBuffer_eq_next h with ⟨-, h⟩ | ⟨b, hb, h⟩
  · exact .inl h
  · obtain ⟨b', hb', ht⟩ := withStored_eq_next h
    exact .inr ⟨b, b', hb, hb', ht⟩

/-- FILLRECT completes with every pixel of the rectangle written, or raises (R148). -/
theorem execFillrect_next (h : execFillrect sel s = .next t) :
    t = s.raise .notConfigured ∨ t = s.raise .rangeError ∨
    ∃ b b', s.slot sel = some b ∧
      ¬(s.operandX < 0 ∨ s.operandY < 0 ∨ s.operandX + s.operandW > b.width
        ∨ s.operandY + s.operandH > b.height) ∧
      b.fillPixels (rowMajor s.operandX.toNat s.operandY.toNat s.operandW.toNat s.operandH.toNat)
        (s.operandV b.mode) = some b' ∧
      t = (s.setSlot sel b').complete := by
  rcases withBuffer_eq_next h with ⟨-, h⟩ | ⟨b, hb, h⟩
  · exact .inl h
  · split at h
    · cases h; exact .inr (.inl rfl)
    · rename_i hr
      obtain ⟨b', hb', ht⟩ := withStored_eq_next h
      exact .inr (.inr ⟨b, b', hb, hr, hb', ht⟩)

/-- BLIT completes with the destination's storage changed, or raises (R170). -/
theorem execBlit_next (h : execBlit sel s = .next t) :
    t = s.raise .notConfigured ∨ t = s.raise .modeMismatch ∨ t = s.raise .coordFault ∨
    ∃ d src d', s.slot sel = some d ∧ s.slot (otherSlot sel) = some src ∧ d.mode = src.mode ∧
      ¬(s.operandX < 0 ∨ s.operandY < 0 ∨ s.operandX + src.width > d.width
        ∨ s.operandY + src.height > d.height) ∧
      d.blitFrom src s.operandX.toNat s.operandY.toNat = some d' ∧
      t = (s.setSlot sel d').complete := by
  rcases withBuffer_eq_next h with ⟨-, h⟩ | ⟨d, hd, h⟩
  · exact .inl h
  · rcases withBuffer_eq_next h with ⟨-, h⟩ | ⟨src, hsrc, h⟩
    · exact .inl h
    · split at h
      · cases h; exact .inr (.inl rfl)
      · rename_i hm
        split at h
        · cases h; exact .inr (.inr (.inl rfl))
        · rename_i hr
          obtain ⟨d', hd', ht⟩ := withStored_eq_next h
          exact .inr (.inr (.inr ⟨d, src, d', hd, hsrc, by simpa using hm, hr, hd', ht⟩))

/-- CONFIG completes with a new buffer in the slot, or raises BAD_CONFIG (R182). -/
theorem execConfig_next {mode : Mode} (h : execConfig sel mode s = .next t) :
    t = s.raise .badConfig ∨
    1 ≤ s.operandW ∧ 1 ≤ s.operandH ∧
      storageLength mode s.operandW.toNat s.operandH.toNat ≤ s.params.pLMax ∧
      t = (s.setSlot sel (freshBuffer mode s.operandW.toNat s.operandH.toNat)).complete := by
  unfold execConfig at h
  split at h
  · cases h; exact .inl rfl
  · split at h
    · cases h; exact .inl rfl
    · cases h; exact .inr ⟨by omega, by omega, by omega, rfl⟩

/-- RAWRD completes with RES_BYTE written, or raises (R184). -/
theorem execRawrd_next (h : execRawrd sel s = .next t) :
    t = s.raise .notConfigured ∨ t = s.raise .indexFault ∨
    ∃ b, s.slot sel = some b ∧ s.operandI < b.len ∧
      t = (s.setByte ((b.byte s.operandI).setWidth 32)).complete := by
  rcases withBuffer_eq_next h with ⟨-, h⟩ | ⟨b, hb, h⟩
  · exact .inl h
  · split at h
    · cases h; exact .inr (.inl rfl)
    · obtain ⟨v, hv, ht⟩ := withStored_eq_next h
      obtain ⟨hlt, rfl⟩ := Buffer.load_eq_some.1 hv
      exact .inr (.inr ⟨b, hb, hlt, ht⟩)

/-- RAWWR completes with one storage byte written, or raises (R185). -/
theorem execRawwr_next (h : execRawwr sel s = .next t) :
    t = s.raise .notConfigured ∨ t = s.raise .indexFault ∨
    ∃ b, s.slot sel = some b ∧ s.operandI < b.len ∧
      t = (s.setSlot sel (b.withByte s.operandI s.operandB)).complete := by
  rcases withBuffer_eq_next h with ⟨-, h⟩ | ⟨b, hb, h⟩
  · exact .inl h
  · split at h
    · cases h; exact .inr (.inl rfl)
    · obtain ⟨b', hb', ht⟩ := withStored_eq_next h
      obtain ⟨hlt, rfl⟩ := Buffer.store_eq_some.1 hb'
      exact .inr (.inr ⟨b, hb, hlt, ht⟩)

/-- INVERT raises NOT_IMPLEMENTED, whatever the state (R125). -/
theorem execInvert_next (h : execInvert sel s = .next t) : t = s.raise .notImplemented := by
  cases h; rfl

end Sys2Proof.Machine
end

