-- ==== Sys2Proof/Laws/HostPort.lean ====
section
/-! SUPPORT. The laws of the host's port and of the step: the register map, the access check, and what one host action
can do, said once. -/

namespace Sys2Proof.Machine

/-! ## The register map -/

/-- The register at a register's offset is that register (R22). -/
@[simp] theorem registerAt_offsetOf (r : RegName) : registerAt (offsetOf r) = some r := by cases r <;> rfl

/-- A register found at an offset has that offset (R22). -/
theorem offsetOf_of_registerAt {n : Nat} {r : RegName} (h : registerAt n = some r) : offsetOf r = n := by
  unfold registerAt at h
  split at h <;> simp_all <;> subst h <;> rfl

@[simp] theorem State.readOffset_offsetOf (s : State) (r : RegName) : s.readOffset (offsetOf r) = s.readReg r := by
  simp [State.readOffset]

/-- Every register lies at an aligned offset inside the space (R22, R50). -/
theorem offsetOf_legal (r : RegName) : offsetOf r < 0x60 ∧ offsetOf r % 4 = 0 := by cases r <;> decide

/-! ## The access check -/

/-- The accesses PPAC has a step for (R56): 32 bits, inside the space, aligned. -/
theorem checkAccess_eq_ok {p : Params} {address width offset : Nat} :
    checkAccess p address width = .ok offset ↔
      width = 32 ∧ address = p.pBase + offset ∧ offset < 0x100 ∧ offset % 4 = 0 := by
  unfold checkAccess
  split
  · simp_all
  · split
    · simp; omega
    · split
      · simp; omega
      · simp only [Except.ok.injEq]; omega

/-- An access to a register at its address passes the check (R58). -/
@[simp] theorem checkAccess_offsetOf (p : Params) (r : RegName) :
    checkAccess p (p.pBase + offsetOf r) 32 = .ok (offsetOf r) :=
  checkAccess_eq_ok.2 ⟨rfl, rfl, by have := offsetOf_legal r; omega, (offsetOf_legal r).2⟩

/-! ## What a host write, a host action and a step can do -/

/-- A write to CMD stores the word and runs the command it encodes, or raises ILLEGAL (R23, R73). -/
theorem runCommand_next {w : Word} {s t : State} (h : runCommand w s = .next t) :
    (∃ i, decode w = .ok i ∧ exec i (s.writeReg .cmd w) = .next t) ∨
    ((∀ i, decode w ≠ .ok i) ∧ t = (s.writeReg .cmd w).raise .illegal) := by
  unfold runCommand at h
  split at h
  · rename_i i hi; exact .inl ⟨i, hi, h⟩
  · rename_i e he; cases h; exact .inr ⟨by simp [he], rfl⟩

/-- A host write runs a command at CMD, stores the word at another register, or does nothing at a reserved offset. -/
theorem hostWrite_next {offset : Nat} {w : Word} {s t : State} (h : hostWrite offset w s = .next t) :
    (registerAt offset = some .cmd ∧ runCommand w s = .next t) ∨
    (∃ r, registerAt offset = some r ∧ r ≠ .cmd ∧ t = s.writeReg r w) ∨
    (registerAt offset = none ∧ t = s) := by
  unfold hostWrite at h
  split at h
  · rename_i hr; exact .inl ⟨hr, h⟩
  · rename_i r hne hr; cases h; exact .inr (.inl ⟨r, hr, hne, rfl⟩)
  · rename_i hr; cases h; exact .inr (.inr ⟨hr, rfl⟩)

/-- What one action does when it answers a next state. -/
theorem perform_next {a : HostAction} {s t : State} (h : perform a s = .next t) :
    (∃ address offset, a = .rd address 32 ∧ checkAccess s.params address 32 = .ok offset ∧
      t = s.setReadData (s.readOffset offset)) ∨
    (∃ address offset w, a = .wr address 32 w ∧ checkAccess s.params address 32 = .ok offset ∧
      hostWrite offset w s = .next t) ∨
    (a = .platformReset ∧ t = s.platformReset) := by
  cases a with
  | rd address width =>
    simp only [perform] at h
    split at h
    · rename_i offset hc
      obtain ⟨rfl, _⟩ := checkAccess_eq_ok.1 hc
      cases h; exact .inl ⟨address, offset, rfl, hc, rfl⟩
    · cases h
  | wr address width w =>
    simp only [perform] at h
    split at h
    · rename_i offset hc
      obtain ⟨rfl, _⟩ := checkAccess_eq_ok.1 hc
      exact .inr (.inl ⟨address, offset, w, rfl, hc, h⟩)
    · cases h
  | platformReset => cases h; exact .inr (.inr ⟨rfl, rfl⟩)

/-- A step performs the action at the host's position, the position moved past it, or, the program over, does nothing. -/
theorem step_next {s t : State} (h : step s = .next t) :
    (s.currentAction = none ∧ t = s) ∨ ∃ a, s.currentAction = some a ∧ perform a s.advance = .next t := by
  unfold step at h
  split at h
  · rename_i a ha; exact .inr ⟨a, ha, h⟩
  · rename_i ha; cases h; exact .inl ⟨ha, rfl⟩

/-- A step at an action is that action, the host's position moved past it. -/
theorem step_of_action {s : State} {a : HostAction} (h : s.currentAction = some a) : step s = perform a s.advance := by
  simp [step, h]

/-- The action placed at the host's position is the one the next step performs. -/
theorem placeAction_getElem? (program : List HostAction) (n : Nat) (a : HostAction) :
    (placeAction program n a)[n]? = some a := by
  unfold placeAction
  rw [List.append_assoc]
  rcases Nat.lt_or_ge n program.length with h | h
  · simp [show n - program.length = 0 by omega, Nat.min_eq_left h.le]
  · rw [List.getElem?_append_right (by simp), List.getElem?_append_right (by simp; omega)]
    simp [Nat.min_eq_right h]

/-- A word placed for fetching is run by the very next step (R23). -/
theorem step_withFetchWord (s : State) (nbits w : Nat) :
    step (s.withFetchWord nbits w) =
      runCommand (BitVec.ofNat 32 (w % 2 ^ nbits)) (s.withFetchWord nbits w).advance := by
  rw [step_of_action (a := writeAction s.params .cmd (BitVec.ofNat 32 (w % 2 ^ nbits)))
    (placeAction_getElem? _ _ _)]
  simp [perform, writeAction, State.withFetchWord, State.advance, hostWrite]

end Sys2Proof.Machine
end

