-- ==== Sys2Proof/Laws/PerInstr.lean ====
section
/-! SUPPORT. The family of statements about commands as syntax: the word of a command is legal and its fields are those
the opcode map gives it (R71 to R73). -/

/-- The encoded word is legal (R73), its OPC is the table's and its SEL and MODE are the command's (R71). -/
def Sys2Proof.Laws.Encoding.Statement (i : Sys2Proof.Instr) : Prop :=
  let f := Sys2Proof.fieldsOf (Sys2Proof.encode i)
  f.wellFormed = true ∧ f.opc.toNat = Sys2Proof.opcodeOf i ∧
    f.sel.toNat = Sys2Proof.slotNumber (Sys2Proof.selOf i) ∧ f.mode.toNat = Sys2Proof.modeBitOf i

namespace Sys2Proof.Laws.Encoding

theorem config (sel : Slot) (mode : Mode) : Statement (.config sel mode) := by
  cases sel <;> cases mode <;> (unfold Statement; decide)

theorem addr (sel : Slot) : Statement (.addr sel) := by cases sel <;> (unfold Statement; decide)

theorem getpx (sel : Slot) : Statement (.getpx sel) := by cases sel <;> (unfold Statement; decide)

theorem setpx (sel : Slot) : Statement (.setpx sel) := by cases sel <;> (unfold Statement; decide)

theorem fill (sel : Slot) : Statement (.fill sel) := by cases sel <;> (unfold Statement; decide)

theorem fillrect (sel : Slot) : Statement (.fillrect sel) := by cases sel <;> (unfold Statement; decide)

theorem invert (sel : Slot) : Statement (.invert sel) := by cases sel <;> (unfold Statement; decide)

theorem blit (sel : Slot) : Statement (.blit sel) := by cases sel <;> (unfold Statement; decide)

theorem rawrd (sel : Slot) : Statement (.rawrd sel) := by cases sel <;> (unfold Statement; decide)

theorem rawwr (sel : Slot) : Statement (.rawwr sel) := by cases sel <;> (unfold Statement; decide)

end Sys2Proof.Laws.Encoding
end

