-- ==== Sys2Proof/Tests/Slice0.lean ====
section
/-! SUPPORT. Tests of the model, with results taken from the spec (the rule or the section of spec/95_test_vectors.md is
named in each), and for every statement a witness: a concrete state and operands that meet its hypotheses together. -/

namespace Sys2Proof.Tests

open Sys2Proof Sys2Proof.Machine

/-! ## Builders -/

/-- A buffer of a mode and size with the given bytes from index 0 up. -/
def buf (mode : Mode) (w h : Nat) (bytes : List Byte) : Buffer :=
  ((freshBuffer mode w h).memWrite 0 bytes).getD (freshBuffer mode w h)

/-- The reset state with buffers in its slots. -/
def slotted (b0 b1 : Option Buffer) : State := { State.reset with slot0 := b0, slot1 := b1 }

/-- A state whose host program is one list of actions. -/
def hosted (s : State) (actions : List HostAction) : State := { s with program := actions }

/-- The outcome is a next state with a property. -/
def nextHas (r : Result) (p : State → Bool) : Bool :=
  match r with
  | .next t => p t
  | _ => false

/-- The outcome is a given refusal. -/
def refusedBy (r : Result) (x : Refusal) : Bool :=
  match r with
  | .refused y => decide (y = x)
  | _ => false

/-- The storage bytes of a slot. -/
def bytesOf (s : State) (k : Slot) : List Byte :=
  match s.slot k with
  | some b => (List.range b.len).map b.byte
  | none => []

/-- The STATUS word. -/
def statusOf (s : State) : Word := s.readReg .status

/-- A zeroed Gray4 4x4 slot 0. -/
def gray44 : State := slotted (some (freshBuffer .gray4 4 4)) none

/-- Gray4 2x1 `[0x5C]` in slot 0 (section 2.7). -/
def gray21 : State := slotted (some (buf .gray4 2 1 [0x5C#8])) none

/-- Rgb444 2x1 `[0x12, 0x3A, 0xBC]` in slot 0 (section 2.6). -/
def rgb21 : State := slotted (some (buf .rgb444 2 1 [0x12#8, 0x3A#8, 0xBC#8])) none

/-- A zeroed Gray4 4x2 slot 0 and Gray4 2x1 `[0xAB]` in slot 1 (R170). -/
def blitPair : State := slotted (some (freshBuffer .gray4 4 2)) (some (buf .gray4 2 1 [0xAB#8]))

/-! ## WellFormed: one ill-formed term for each check -/

theorem test_wf_opcode : CommandFields.wellFormed ⟨0x0B#8, 0#1, 0#1, 0#22⟩ = false ∧
    CommandFields.wellFormed ⟨0x00#8, 0#1, 0#1, 0#22⟩ = false := by decide

theorem test_wf_reserved : CommandFields.wellFormed ⟨0x05#8, 0#1, 0#1, 1#22⟩ = false := by decide

theorem test_wf_mode : CommandFields.wellFormed ⟨0x05#8, 0#1, 1#1, 0#22⟩ = false := by decide

theorem test_wf_config : CommandFields.wellFormed ⟨0x01#8, 1#1, 1#1, 0#22⟩ = true := by decide

theorem test_wf_width : HostAction.wellFormed Config.params (.rd 0x04 16) = false := by decide

theorem test_wf_space : HostAction.wellFormed Config.params (.wr 0x100 32 0#32) = false := by decide

theorem test_wf_aligned : HostAction.wellFormed Config.params (.rd 0x06 32) = false := by decide

theorem test_wf_access : HostAction.wellFormed Config.params (.rd 0x5C 32) = true := by decide

/-! ## Decode: a word of every constructor, from R71, R72 and the encodings of its rule -/

theorem test_decode_config : decode 0x00000301#32 = .ok (.config .s1 .rgb444) ∧
    decode 0x00000001#32 = .ok (.config .s0 .gray4) := ⟨rfl, rfl⟩

theorem test_decode_addr : decode 0x00000002#32 = .ok (.addr .s0) := rfl

theorem test_decode_getpx : decode 0x00000103#32 = .ok (.getpx .s1) := rfl

theorem test_decode_setpx : decode 0x00000104#32 = .ok (.setpx .s1) := rfl

theorem test_decode_fill : decode 0x00000005#32 = .ok (.fill .s0) := rfl

theorem test_decode_fillrect : decode 0x00000106#32 = .ok (.fillrect .s1) := rfl

theorem test_decode_invert : decode 0x00000007#32 = .ok (.invert .s0) := rfl

theorem test_decode_blit : decode 0x00000108#32 = .ok (.blit .s1) := rfl

theorem test_decode_rawrd : decode 0x00000109#32 = .ok (.rawrd .s1) := rfl

theorem test_decode_rawwr : decode 0x0000000A#32 = .ok (.rawwr .s0) := rfl

/-- The illegal words of program P5, and the first reserved opcode above the table (R77). -/
theorem test_decode_illegal : decode 0x00000000#32 = .error .reservedOpcode ∧
    decode 0x0000000B#32 = .error .reservedOpcode ∧ decode 0x00000400#32 = .error .reservedOpcode ∧
    decode 0x00000405#32 = .error .reservedBits ∧ decode 0x00000205#32 = .error .modeOnOtherOpcode :=
  ⟨rfl, rfl, rfl, rfl, rfl⟩

theorem test_table_word : decodeTableWord 32 0x00000109 = some (.rawrd .s1) ∧ decodeTableWord 16 0x0301 = some (.config .s1 .rgb444)
    ∧ decodeTableWord 40 0x00000109 = none := ⟨rfl, rfl, rfl⟩

/-- The word placed runs in the next step: INVERT raises (R125: STATUS = 0x00000102). -/
theorem test_fetch_word :
    nextHas (step (State.reset.withFetchWord 32 0x00000007)) (fun t => decide (statusOf t = 0x00000102#32)) = true := by
  decide

/-! ## One step of each command -/

/-- R182: `CFG s0, GRAY4, 4, 4`. -/
theorem test_config : nextHas (exec (.config .s0 .gray4) { State.reset with opw := 4#32, oph := 4#32 })
    (fun t => decide (t.readReg .s0Cfg = 0x80000000#32 ∧ t.readReg .s0Len = 8#32
      ∧ bytesOf t .s0 = List.replicate 8 0x00#8)) = true := by decide

/-- R182: w = 0 raises BAD_CONFIG. -/
theorem test_config_bad : nextHas (exec (.config .s0 .gray4) { gray44 with opw := 0#32, oph := 4#32 })
    (fun t => decide (statusOf t = 0x00000106#32 ∧ t.slot0 = gray44.slot0)) = true := by decide

/-- R122: Rgb444, W = 4, pixel (1,1). -/
theorem test_addr : nextHas
    (exec (.addr .s0) { slotted (some (freshBuffer .rgb444 4 2)) none with opx := 1#32, opy := 1#32 })
    (fun t => decide (t.resAddr = 7#32 ∧ t.resInfo = 0x00FF0F05#32)) = true := by decide

/-- Section 2.5: x = -1 raises COORD_FAULT. -/
theorem test_addr_negative : nextHas (exec (.addr .s0) { gray44 with opx := 0xFFFFFFFF#32 })
    (fun t => decide (statusOf t = 0x00000103#32 ∧ t.resAddr = 0#32)) = true := by decide

/-- Section 2.6: Rgb444 2x1 `[0x12, 0x3A, 0xBC]` at (1,0). -/
theorem test_getpx_rgb : nextHas (exec (.getpx .s0) { rgb21 with opx := 1#32 })
    (fun t => decide (t.resVal = 0xABC#32 ∧ t.resRgb = 0x00AABBCC#32 ∧ t.resAddr = 1#32
      ∧ t.resInfo = 0x00FF0F05#32)) = true := by decide

/-- Section 2.6: Gray4 2x1 `[0xF0]` at (0,0) reads 0xF and expands to 0xF0, not 0xFF. -/
theorem test_getpx_gray : nextHas (exec (.getpx .s0) (slotted (some (buf .gray4 2 1 [0xF0#8])) none))
    (fun t => decide (t.resVal = 0xF#32 ∧ t.resRgb = 0x00F0F0F0#32)) = true := by decide

/-- Section 2.7: bits of OPV above 3 are ignored and the neighbour's nibble stays. -/
theorem test_setpx_gray : nextHas (exec (.setpx .s0) { gray21 with opx := 1#32, opv := 0x13#32 })
    (fun t => decide (bytesOf t .s0 = [0x53#8])) = true := by decide

/-- Section 2.7: Rgb444 2x1 `[0xEE, 0xDD, 0x77]` at (1,0) with 0xF456. -/
theorem test_setpx_rgb : nextHas (exec (.setpx .s0)
      { slotted (some (buf .rgb444 2 1 [0xEE#8, 0xDD#8, 0x77#8])) none with opx := 1#32, opv := 0xF456#32 })
    (fun t => decide (bytesOf t .s0 = [0xEE#8, 0xD4#8, 0x56#8])) = true := by decide

/-- Program P6: FILL of Rgb444 3x2 with 0x123. -/
theorem test_fill_rgb : nextHas
    (exec (.fill .s1) { slotted none (some (freshBuffer .rgb444 3 2)) with opv := 0x123#32 })
    (fun t => decide (bytesOf t .s1 =
      [0x12#8, 0x31#8, 0x23#8, 0x12#8, 0x31#8, 0x23#8, 0x12#8, 0x31#8, 0x23#8])) = true := by decide

/-- R144: an Rgb444 1x1 slot has L = 2 and takes P[0], P[1]. -/
theorem test_fill_short : nextHas
    (exec (.fill .s0) { slotted (some (freshBuffer .rgb444 1 1)) none with opv := 0x123#32 })
    (fun t => decide (bytesOf t .s0 = [0x12#8, 0x31#8])) = true := by decide

/-- R148: the example rectangle. -/
theorem test_fillrect : nextHas
    (exec (.fillrect .s0) { gray44 with opx := 1#32, opy := 1#32, opw := 2#32, oph := 2#32, opv := 0xA#32 })
    (fun t => decide (bytesOf t .s0 =
      [0x00#8, 0x00#8, 0x0A#8, 0xA0#8, 0x0A#8, 0xA0#8, 0x00#8, 0x00#8])) = true := by decide

/-- R148: x = 3, w = -5, W = 4 ends OK with no write. -/
theorem test_fillrect_negative : nextHas
    (exec (.fillrect .s0) { gray44 with opx := 3#32, opw := 0xFFFFFFFB#32, oph := 1#32, opv := 0xA#32 })
    (fun t => decide (statusOf t = 0#32 ∧ t.slot0 = gray44.slot0)) = true := by decide

/-- R125: STATUS = 0x00000102 on a slot that is not valid. -/
theorem test_invert : nextHas (exec (.invert .s0) State.reset)
    (fun t => decide (statusOf t = 0x00000102#32)) = true := by decide

/-- R170: at (2,1) the fast path. -/
theorem test_blit_fast : nextHas (exec (.blit .s0) { blitPair with opx := 2#32, opy := 1#32 })
    (fun t => decide (bytesOf t .s0 = [0x00#8, 0x00#8, 0x00#8, 0xAB#8])) = true := by decide

/-- R170: at (1,1) the fallback. -/
theorem test_blit_fallback : nextHas (exec (.blit .s0) { blitPair with opx := 1#32, opy := 1#32 })
    (fun t => decide (bytesOf t .s0 = [0x00#8, 0x00#8, 0x0A#8, 0xB0#8])) = true := by decide

/-- R184: byte 0 of the storage; the index L raises INDEX_FAULT. -/
theorem test_rawrd : nextHas (exec (.rawrd .s0) rgb21) (fun t => decide (t.resByte = 0x12#32)) = true ∧
    nextHas (exec (.rawrd .s0) { rgb21 with opi := 3#32 }) (fun t => decide (statusOf t = 0x00000104#32)) = true := by
  decide

/-- R185: `BWR s0, 0, 0x5A`, with a bit of OPB above 7 that is ignored. -/
theorem test_rawwr : nextHas (exec (.rawwr .s0) { gray44 with opb := 0x15A#32 })
    (fun t => decide ((bytesOf t .s0).take 2 = [0x5A#8, 0x00#8])) = true := by decide

/-! ## Witnesses: reset, the invariant, the step -/

/-- A state with an error pending and a platform reset next. -/
def resetNext : State := hosted { gray44 with errSeen := true, code := .illegal } [.platformReset]

theorem witness_platform_reset : resetNext.currentAction = some .platformReset ∧
    SameHostSide resetNext (hosted State.reset [.platformReset]) ∧ resetNext.errSeen = true ∧
    nextHas (step resetNext) (fun t => !t.errSeen) = true := by decide

theorem witness_reset_invariant : 0 < (Params.mk 1 0x40000000).pLMax := by decide

/-- A state that meets the invariant and whose next action is SETPX. -/
def setpxNext : State := hosted { gray21 with opv := 0xA#32 } [.wr 0x00 32 0x00000004#32]

theorem witness_step_keeps_invariant : setpxNext.Inv ∧
    nextHas (step setpxNext) (fun t => decide (t ≠ setpxNext ∧ bytesOf t .s0 = [0xAC#8])) = true := by decide

theorem witness_step_runs_command : decode 0x00000004#32 = .ok (.setpx .s0) ∧
    setpxNext.currentAction = some (.wr setpxNext.params.pBase 32 0x00000004#32) ∧
    (∀ i, decode 0x00000204#32 ≠ .ok i) ∧
    (hosted gray21 [.wr 0x00 32 0x00000204#32]).currentAction = some (.wr gray21.params.pBase 32 0x00000204#32) :=
  ⟨rfl, rfl, fun _ h => (by cases h), rfl⟩

theorem witness_index_advances : setpxNext.currentAction = some (.wr 0x00 32 0x00000004#32) ∧
    (HostAction.wr 0x00 32 0x00000004#32) ≠ .platformReset ∧ nextHas (step setpxNext) (fun _ => true) = true := by decide

theorem witness_program_over : State.reset.program.length ≤ State.reset.index := by decide

/-! ## Witnesses: encoding -/

/-- The two branches at the edges of the opcode range, of MODE and of RSV. -/
theorem witness_legal_words :
    (∀ n ∈ [0x001, 0x00A, 0x301, 0x10A], (1 ≤ n % 256 ∧ n % 256 ≤ 10) ∧ n / 1024 = 0 ∧
      (n / 512 % 2 = 0 ∨ n % 256 = 1)) ∧
    (∀ n ∈ [0x000, 0x00B, 0x401, 0x202, 0x20A], ¬((1 ≤ n % 256 ∧ n % 256 ≤ 10) ∧ n / 1024 = 0 ∧
      (n / 512 % 2 = 0 ∨ n % 256 = 1))) := by decide

theorem witness_word_and_command : decode 0x00000301#32 = .ok (.config .s1 .rgb444) ∧
    0x00000301#32 = encode (.config .s1 .rgb444) := ⟨rfl, rfl⟩

/-! ## Witnesses: the host's port -/

/-- The reset state with another base address, so that addresses below it exist. -/
def based (actions : List HostAction) : State := hosted (State.resetWith ⟨64, 0x1000⟩) actions

theorem witness_aligned_accesses :
    ((based [.rd 0x10FC 16]).currentAction = some (.rd ((based []).params.pBase + 0xFC) 16) ∧ 0xFC < 0x100) ∧
    ((based [.rd 0x1002 8]).currentAction = some (.rd ((based []).params.pBase + 0x02) 8) ∧ 0x02 % 4 ≠ 0) ∧
    ((based [.rd 0x10FF 32]).currentAction = some (.rd ((based []).params.pBase + 0xFF) 32) ∧ 0xFF % 4 ≠ 0) ∧
    ((based [.wr 0x10FC 32 1#32]).currentAction = some (.wr ((based []).params.pBase + 0xFC) 32 1#32)
      ∧ 0xFC % 4 = 0) := by decide

theorem witness_outside_accesses :
    ((based [.rd 0x0FFF 32]).currentAction = some (.rd 0x0FFF 32) ∧ 0x0FFF < (based []).params.pBase) ∧
    ((based [.wr 0x1100 16 1#32]).currentAction = some (.wr 0x1100 16 1#32)
      ∧ (based []).params.pBase + 0x100 ≤ 0x1100) := by decide

/-- A state whose result registers differ, and a read of the last of them and of the map's last register. -/
theorem witness_register_read :
    let s := { based [.rd 0x1034 32] with resInfo := 0x00FF0F05#32, resByte := 0xF3#32 }
    ((0x34, 0xF3#32) ∈ [(0x30, s.resInfo), (0x34, s.resByte)] ∧
      s.currentAction = some (.rd (s.params.pBase + 0x34) 32)) ∧
    ((0x5C, 0#32) ∈ [(0x5C, s.readReg .s1Len)] ∧
      (based [.rd 0x105C 32]).currentAction = some (.rd ((based []).params.pBase + 0x5C) 32)) := by decide

theorem witness_reserved_offsets : (∀ n ∈ [0x38, 0x3C, 0x60, 0xFC], (n = 0x38 ∨ n = 0x3C ∨ 0x60 ≤ n) ∧ n < 0x100
      ∧ n % 4 = 0) ∧
    (based [.rd 0x1060 32]).currentAction = some (.rd ((based []).params.pBase + 0x60) 32) ∧
    (based [.wr 0x1038 32 1#32]).currentAction = some (.wr ((based []).params.pBase + 0x38) 32 1#32) := by decide

theorem witness_read_only_writes : ∀ n ∈ [0x04, 0x24, 0x34, 0x40, 0x5C],
    (based [.wr (0x1000 + n) 32 1#32]).currentAction = some (.wr ((based []).params.pBase + n) 32 1#32) := by decide

theorem witness_operand_writes : ∀ n ∈ [0x08, 0x0C, 0x10, 0x14, 0x18, 0x1C, 0x20],
    (based [.wr (0x1000 + n) 32 0xFFFFFFFF#32]).currentAction =
      some (.wr ((based []).params.pBase + n) 32 0xFFFFFFFF#32) := by decide

theorem witness_other_accesses : (based [.wr 0x1008 32 1#32]).currentAction = some (.wr 0x1008 32 1#32) ∧
    nextHas (step (based [.wr 0x1008 32 1#32])) (fun t => decide (t.opx = 1#32)) = true ∧
    (HostAction.wr 0x1008 32 1#32) ≠ .platformReset ∧
    ∀ w, (HostAction.wr 0x1008 32 1#32) ≠ .wr (based []).params.pBase 32 w :=
  ⟨by decide, by decide, by decide, fun w h => by cases h⟩

theorem witness_slot_registers : rgb21.Inv ∧ rgb21.slot .s1 = none ∧
    rgb21.slot .s0 = some (buf .rgb444 2 1 [0x12#8, 0x3A#8, 0xBC#8]) ∧
    (buf .rgb444 2 1 [0x12#8, 0x3A#8, 0xBC#8]).len < 2 ^ 32 := by decide

/-! ## Witnesses: the pixel units -/

/-- The last pixel of an odd-width buffer. -/
theorem witness_in_range_pixel : 2 < 3 ∧ 1 < 2 ∧
    addressOf .rgb444 3 2 1 + bytesTouched .rgb444 - 1 = (3 * 2 * bitsPerPixel .rgb444 + 7) / 8 - 1 := by decide

theorem witness_nibble_owners : (2 % 2 = 0 ∧ 0 < storageLength .rgb444 2 1 ∧ 7 < 8) ∧ (3 % 2 = 1 ∧ 2 ≤ 2) := by decide

theorem witness_write_then_read : (freshBuffer .gray4 3 2).wf Config.params ∧ (freshBuffer .gray4 3 2).inRange 2 1 ∧
    valueFits .gray4 0xF#12 ∧ valueFits .rgb444 0xFFF#12 := by decide

/-- The pairs of R115: neighbours in one byte at an even width, the aliased pair (2,0) and (0,1) at W = 3. -/
theorem witness_neighbours :
    ((freshBuffer .gray4 2 1).wf Config.params ∧ (freshBuffer .gray4 2 1).inRange 0 0 ∧
      (freshBuffer .gray4 2 1).inRange 1 0 ∧ (1, 0) ≠ (0, 0) ∧ (freshBuffer .gray4 2 1).width % 2 = 0 ∧
      ((freshBuffer .gray4 2 1).writePixel 0 0 0x7#12).isSome = true) ∧
    ((freshBuffer .gray4 3 2).wf Config.params ∧ (freshBuffer .gray4 3 2).inRange 2 0 ∧
      (freshBuffer .gray4 3 2).inRange 0 1 ∧ (0, 1) ≠ (2, 0) ∧ (freshBuffer .gray4 3 2).width % 2 = 1 ∧
      2 ≤ (freshBuffer .gray4 3 2).height ∧ ownsBit .gray4 3 2 0 1 7 ∧ ownsBit .gray4 3 0 1 1 7) := by decide

theorem witness_expand : (0xF#12).toNat < 16 := by decide

/-! ## Witnesses: pixel access -/

theorem witness_unconfigured : State.reset.slot .s0 = none ∧
    (1 ≤ ({ State.reset with opw := 1#32, oph := 1#32 } : State).operandW ∧
      1 ≤ ({ State.reset with opw := 1#32, oph := 1#32 } : State).operandH ∧
      storageLength .gray4 1 1 ≤ State.reset.params.pLMax) ∧
    (∀ i, decode 0x00000000#32 ≠ .ok i) := ⟨by decide, by decide, fun i h => by cases h⟩

/-- The coordinate of a state is outside a Gray4 4x4 buffer. -/
def outside44 (s : State) : Bool :=
  decide (s.slot .s0 = some (freshBuffer .gray4 4 4)) &&
    !decide ((0 ≤ s.operandX ∧ s.operandX < (freshBuffer .gray4 4 4).width) ∧
      (0 ≤ s.operandY ∧ s.operandY < (freshBuffer .gray4 4 4).height))

/-- x = -1, x = W, y = H and y = -2^31 on a valid slot (section 2.5). -/
theorem witness_out_of_range : outside44 { gray44 with opx := 0xFFFFFFFF#32 } = true ∧
    outside44 { gray44 with opx := 4#32 } = true ∧ outside44 { gray44 with opy := 4#32 } = true ∧
    outside44 { gray44 with opy := 0x80000000#32 } = true := ⟨by decide, by decide, by decide, by decide⟩

/-- The coordinate (3,3) of a Gray4 4x4 slot, its last pixel. -/
def gray44Last : State := { gray44 with opx := 3#32, opy := 3#32 }

/-- The coordinate (1,0) of an Rgb444 2x1 slot, its last pixel. -/
def rgb21Last : State := { rgb21 with opx := 1#32 }

/-- For ADDR, GETPX and SETPX. -/
theorem witness_in_range_gray : gray44Last.Inv ∧ gray44Last.slot .s0 = some (freshBuffer .gray4 4 4) ∧
    gray44Last.operandX = (3 : Nat) ∧ gray44Last.operandY = (3 : Nat) ∧ (freshBuffer .gray4 4 4).inRange 3 3 :=
  ⟨by decide, by decide, by decide, by decide, by decide⟩

/-- For ADDR, GETPX and SETPX. -/
theorem witness_in_range_rgb : rgb21Last.Inv ∧
    rgb21Last.slot .s0 = some (buf .rgb444 2 1 [0x12#8, 0x3A#8, 0xBC#8]) ∧ rgb21Last.operandX = (1 : Nat) ∧
    rgb21Last.operandY = (0 : Nat) ∧ (buf .rgb444 2 1 [0x12#8, 0x3A#8, 0xBC#8]).inRange 1 0 :=
  ⟨by decide, by decide, by decide, by decide, by decide⟩

theorem witness_set_then_get : gray21.Inv ∧ gray21.slot .s0 = some (buf .gray4 2 1 [0x5C#8]) ∧
    nextHas (exec (.setpx .s0) gray21) (fun t => decide (t.code = .ok)) = true := by decide

/-! ## Witnesses: fill -/

theorem witness_fill : gray44.Inv ∧ gray44.slot .s0 = some (freshBuffer .gray4 4 4) ∧ gray44.slot .s1 = none := by decide

/-- A zeroed Rgb444 slot 0 of width 3. -/
def rgbOdd (h : Nat) : State := slotted (some (freshBuffer .rgb444 3 h)) none

/-- H = 1: the fill is uniform. -/
theorem witness_fill_uniform : (rgbOdd 1).Inv ∧ (rgbOdd 1).slot .s0 = some (freshBuffer .rgb444 3 1) ∧
    (freshBuffer .rgb444 3 1).height = 1 ∧ (freshBuffer .rgb444 3 1).inRange 2 0 ∧
    nextHas (exec (.fill .s0) (rgbOdd 1)) (fun t => (t.slot .s0).isSome) = true :=
  ⟨by decide, by decide, by decide, by decide, by decide⟩

/-- W odd and H = 2: pixel (0,1) reads the rotated value. -/
theorem witness_fill_rotated : (rgbOdd 2).Inv ∧ (rgbOdd 2).slot .s0 = some (freshBuffer .rgb444 3 2) ∧
    (freshBuffer .rgb444 3 2).width % 2 = 1 ∧ 2 ≤ (freshBuffer .rgb444 3 2).height ∧
    nextHas (exec (.fill .s0) (rgbOdd 2)) (fun t => (t.slot .s0).isSome) = true :=
  ⟨by decide, by decide, by decide, by decide, by decide⟩

/-- Each of the four failing conditions alone, at its edge. -/
theorem witness_rectangle_outside : gray44.slot .s0 = some (freshBuffer .gray4 4 4) ∧
    ({ gray44 with opx := 0xFFFFFFFF#32 } : State).operandX < 0 ∧
    ({ gray44 with opy := 0xFFFFFFFF#32 } : State).operandY < 0 ∧
    ({ gray44 with opx := 3#32, opw := 2#32 } : State).operandX
      + ({ gray44 with opx := 3#32, opw := 2#32 } : State).operandW > (freshBuffer .gray4 4 4).width ∧
    ({ gray44 with opy := 3#32, oph := 2#32 } : State).operandY
      + ({ gray44 with opy := 3#32, oph := 2#32 } : State).operandH > (freshBuffer .gray4 4 4).height := by decide

/-- The example rectangle of R148. -/
def rect : State := { gray44 with opx := 1#32, opy := 1#32, opw := 2#32, oph := 2#32, opv := 0xA#32 }

theorem rect_bounded (i r : Nat) (h : rect.inRectangle i r) : i < 4 ∧ r < 4 := by
  have hx : rect.operandX + rect.operandW = 3 := by decide
  have hy : rect.operandY + rect.operandH = 3 := by decide
  obtain ⟨⟨-, h1⟩, -, h2⟩ := h
  omega

/-- Byte 0 is outside the rectangle; the last pixel (2,2) owns the high nibble of byte 5. -/
theorem witness_fillrect : rect.Inv ∧ rect.slot .s0 = some (freshBuffer .gray4 4 4) ∧
    (0 ≤ rect.operandX ∧ 0 ≤ rect.operandY ∧ rect.operandX + rect.operandW ≤ (freshBuffer .gray4 4 4).width ∧
      rect.operandY + rect.operandH ≤ (freshBuffer .gray4 4 4).height) ∧
    (∀ i r, rect.inRectangle i r → ¬ownsBit .gray4 4 i r 0 7) ∧
    (rect.inRectangle 2 2 ∧ ownsBit .gray4 4 2 2 5 7 ∧
      ∀ i r, rect.inRectangle i r → laterPixel i r 2 2 → ¬ownsBit .gray4 4 i r 5 7) := by
  refine ⟨by decide, by decide, by decide, fun i r h => ?_, by decide, by decide, fun i r h hl => ?_⟩
  · exact (by decide : ∀ i < 4, ∀ r < 4, rect.inRectangle i r → ¬ownsBit .gray4 4 i r 0 7)
      i (rect_bounded i r h).1 r (rect_bounded i r h).2 h
  · exact (by decide : ∀ i < 4, ∀ r < 4, rect.inRectangle i r ∧ laterPixel i r 2 2 → ¬ownsBit .gray4 4 i r 5 7)
      i (rect_bounded i r h).1 r (rect_bounded i r h).2 ⟨h, hl⟩

/-- x = W with w = 0, and x = 3 with w = -5 (R148). -/
theorem witness_empty_rectangle : gray44.slot .s0 = some (freshBuffer .gray4 4 4) ∧
    (({ gray44 with opx := 4#32 } : State).operandX + gray44.operandW ≤ (freshBuffer .gray4 4 4).width ∧
      gray44.operandW ≤ 0 ∧ gray44.operandY + gray44.operandH ≤ (freshBuffer .gray4 4 4).height) ∧
    (0 ≤ ({ gray44 with opx := 3#32, opw := 0xFFFFFFFB#32 } : State).operandX ∧
      ({ gray44 with opx := 3#32, opw := 0xFFFFFFFB#32 } : State).operandW ≤ 0) := by decide

theorem witness_fillrect_even : rect.Inv ∧ rect.slot .s0 = some (freshBuffer .gray4 4 4) ∧
    (freshBuffer .gray4 4 4).width % 2 = 0 ∧
    nextHas (exec (.fillrect .s0) rect) (fun t => decide (t.code = .ok) && (t.slot .s0).isSome) = true ∧
    (freshBuffer .gray4 4 4).inRange 1 1 ∧ rect.inRectangle 1 1 ∧ (freshBuffer .gray4 4 4).inRange 0 0 ∧
    ¬rect.inRectangle 0 0 := by decide

/-- A padding bit: bit 0 of the last byte of a Gray4 3x1 buffer. -/
theorem witness_padding : (slotted (some (freshBuffer .gray4 3 1)) none).Inv ∧
    nextHas (exec (.setpx .s0) (slotted (some (freshBuffer .gray4 3 1)) none)) (fun t => (t.slot .s0).isSome) = true ∧
    ∀ x y, (freshBuffer .gray4 3 1).inRange x y → ¬ownsBit .gray4 3 x y 1 0 :=
  ⟨by decide, by decide, fun x y h =>
    (by decide : ∀ x < 3, ∀ y < 1, ¬ownsBit .gray4 3 x y 1 0) x h.1 y h.2⟩

/-! ## Witnesses: block copy -/

theorem witness_blit_refused :
    ((slotted (some (freshBuffer .gray4 4 2)) (some (freshBuffer .rgb444 2 1))).slot .s0
        = some (freshBuffer .gray4 4 2) ∧
      (slotted (some (freshBuffer .gray4 4 2)) (some (freshBuffer .rgb444 2 1))).slot (otherSlot .s0)
        = some (freshBuffer .rgb444 2 1) ∧ (freshBuffer .gray4 4 2).mode ≠ (freshBuffer .rgb444 2 1).mode) ∧
    ({ blitPair with opx := 3#32 } : State).operandX + (buf .gray4 2 1 [0xAB#8]).width
      > (freshBuffer .gray4 4 2).width := by decide

/-- A Gray4 fast path into an odd width, and an Rgb444 one. -/
theorem witness_fast_path :
    ((freshBuffer .gray4 5 2).wf Config.params ∧ (buf .gray4 2 1 [0xAB#8]).wf Config.params ∧
      2 + (buf .gray4 2 1 [0xAB#8]).width ≤ (freshBuffer .gray4 5 2).width ∧
      1 + (buf .gray4 2 1 [0xAB#8]).height ≤ (freshBuffer .gray4 5 2).height ∧ 2 % 2 = 0 ∧
      (buf .gray4 2 1 [0xAB#8]).width % 2 = 0) ∧
    ((freshBuffer .rgb444 4 2).wf Config.params ∧ (freshBuffer .rgb444 2 1).wf Config.params ∧
      2 + (freshBuffer .rgb444 2 1).width ≤ (freshBuffer .rgb444 4 2).width ∧
      (freshBuffer .rgb444 4 2).width % 2 = 0 ∧ (freshBuffer .rgb444 2 1).width % 2 = 0) := by decide

/-- The fallback copy of R170 at (1,1): byte 0 is outside; source pixel (1,0) lands in the high nibble of byte 3. -/
theorem witness_blit : blitPair.Inv ∧ blitPair.slot .s0 = some (freshBuffer .gray4 4 2) ∧
    blitPair.slot (otherSlot .s0) = some (buf .gray4 2 1 [0xAB#8]) ∧
    ({ blitPair with opx := 1#32, opy := 1#32 } : State).operandX = 1 ∧
    ({ blitPair with opx := 1#32, opy := 1#32 } : State).operandY = 1 ∧
    1 + (buf .gray4 2 1 [0xAB#8]).width ≤ (freshBuffer .gray4 4 2).width ∧
    1 + (buf .gray4 2 1 [0xAB#8]).height ≤ (freshBuffer .gray4 4 2).height ∧
    (∀ i r, (buf .gray4 2 1 [0xAB#8]).inRange i r → ¬ownsBit .gray4 4 (1 + i) (1 + r) 0 7) ∧
    ((buf .gray4 2 1 [0xAB#8]).inRange 1 0 ∧ (buf .gray4 2 1 [0xAB#8]).readPixel 1 0 = some 0xB#12 ∧
      ownsBit .gray4 4 (1 + 1) (1 + 0) 3 7 ∧
      ∀ i r, (buf .gray4 2 1 [0xAB#8]).inRange i r → laterPixel i r 1 0 →
        ¬ownsBit .gray4 4 (1 + i) (1 + r) 3 7) := by
  refine ⟨by decide, by decide, by decide, by decide, by decide, by decide, by decide, fun i r h => ?_, by decide,
    by decide, by decide, fun i r h => ?_⟩
  · exact (by decide : ∀ i < 2, ∀ r < 1, ¬ownsBit .gray4 4 (1 + i) (1 + r) 0 7) i h.1 r h.2
  · exact (by decide : ∀ i < 2, ∀ r < 1, laterPixel i r 1 0 → ¬ownsBit .gray4 4 (1 + i) (1 + r) 3 7) i h.1 r h.2

theorem witness_blit_even : (freshBuffer .gray4 4 2).width % 2 = 0 ∧
    nextHas (exec (.blit .s0) { blitPair with opx := 1#32, opy := 1#32 })
      (fun t => decide (t.code = .ok) && (t.slot .s0).isSome) = true ∧
    (buf .gray4 2 1 [0xAB#8]).inRange 1 0 ∧ (freshBuffer .gray4 4 2).inRange 3 1 ∧
    ¬((1 ≤ 3 ∧ 3 < 1 + (buf .gray4 2 1 [0xAB#8]).width) ∧
      (1 ≤ 1 ∧ 1 < 1 + (buf .gray4 2 1 [0xAB#8]).height)) := by decide

/-! ## Witnesses: buffer management -/

/-- The largest Gray4 buffer of 64 bytes, over a slot that held another. -/
theorem witness_config : ({ gray44 with opw := 128#32, oph := 1#32 } : State).operandW = (128 : Nat) ∧
    ({ gray44 with opw := 128#32, oph := 1#32 } : State).operandH = (1 : Nat) ∧ 1 ≤ 128 ∧ 1 ≤ 1 ∧
    (128 * 1 * 4 + 7) / 8 ≤ gray44.params.pLMax := by decide

/-- w = 0, h = -1, and one byte more than P_LMAX. -/
theorem witness_bad_config : ({ gray44 with oph := 1#32 } : State).operandW < 1 ∧
    ({ gray44 with opw := 1#32, oph := 0xFFFFFFFF#32 } : State).operandH < 1 ∧
    ((129 : Int) * 1 * 4 + 7) / 8 > gray44.params.pLMax := by decide

/-- The last legal index and the first illegal one, and a slot that is not valid, for RAWRD and RAWWR. -/
theorem witness_raw_access : rgb21.Inv ∧ rgb21.slot .s1 = none ∧
    rgb21.slot .s0 = some (buf .rgb444 2 1 [0x12#8, 0x3A#8, 0xBC#8]) ∧
    ({ rgb21 with opi := 2#32 } : State).opi.toNat < (buf .rgb444 2 1 [0x12#8, 0x3A#8, 0xBC#8]).len ∧
    (buf .rgb444 2 1 [0x12#8, 0x3A#8, 0xBC#8]).len ≤ ({ rgb21 with opi := 3#32 } : State).opi.toNat := by decide

theorem witness_adopt : State.reset.Inv ∧
    nextHas (exec (.config .s0 .rgb444) { State.reset with opw := 2#32, oph := 1#32 })
      (fun t => decide (t.code = .ok ∧ t.slot .s0 = some (freshBuffer .rgb444 2 1))) = true ∧
    (freshBuffer .rgb444 2 1).len < 2 ^ 32 ∧ [0x12#8, 0x3A#8, 0xBC#8].length ≤ (freshBuffer .rgb444 2 1).len := by decide

/-! ## Witnesses: how commands end -/

theorem witness_raised : nextHas (exec (.fill .s0) State.reset) (fun t => decide (t.code ≠ .ok)) = true := by decide

theorem witness_completed : nextHas (exec (.fill .s0) { gray44 with errSeen := true })
    (fun t => decide (t.code = .ok ∧ t.errSeen = true)) = true := by decide

theorem witness_first_failing_check : State.reset.Inv ∧ decode 0x00000007#32 = .ok (.invert .s0) :=
  ⟨by decide, rfl⟩

theorem witness_results : Instr.fill .s0 ≠ .getpx (selOf (.fill .s0)) ∧ Instr.fill .s0 ≠ .addr (selOf (.fill .s0)) ∧
    Instr.fill .s0 ≠ .setpx (selOf (.fill .s0)) ∧ Instr.fill .s0 ≠ .rawrd (selOf (.fill .s0)) ∧
    nextHas (exec (.fill .s0) gray44) (fun _ => true) = true := by decide

theorem witness_no_command_changes : nextHas (exec (.blit .s0) blitPair)
    (fun t => decide (t.slot .s1 = blitPair.slot .s1 ∧ t.slot .s0 ≠ blitPair.slot .s0)) = true := by decide

theorem witness_reading_commands : ∀ i ∈ [Instr.addr .s0, .getpx .s0, .invert .s0, .rawrd .s0],
    nextHas (exec i rgb21) (fun t => decide (t.slot0 = rgb21.slot0)) = true := by decide

/-- A slot that keeps its shape under SETPX, and one that a CONFIG replaces. -/
theorem witness_shape : (setpxNext.slot .s0 = some (buf .gray4 2 1 [0x5C#8]) ∧
      setpxNext.currentAction ≠ some .platformReset ∧ nextHas (step setpxNext) (fun _ => true) = true) ∧
    nextHas (step (hosted { gray44 with opw := 1#32, oph := 1#32 } [.wr 0x00 32 0x00000001#32]))
      (fun t => decide (t.slot .s0 = some (freshBuffer .gray4 1 1))) = true := by decide

/-- One pseudo-instruction of each kind. -/
theorem witness_pseudo : ∀ q ∈ [Pseudo.cfg .s0 .rgb444 4#32 5#32, .paddr .s1 1#32 2#32, .pget .s0 1#32 2#32,
      .pset .s1 1#32 2#32 3#32, .pfill .s0 3#32, .prect .s1 1#32 2#32 4#32 5#32 3#32, .pinv .s0 1#32 2#32,
      .pblit .s1 1#32 2#32, .brd .s0 6#32, .bwr .s1 6#32 7#32],
    (hosted State.reset (expandPseudo Config.params q)).program.drop State.reset.index =
      expandPseudo State.reset.params q ++ [] := by decide

end Sys2Proof.Tests
end

/-! SUPPORT. What every command and every step can do, said once: a command raises a code or completes with the effect
of its rule; a step is one of five events. The storage operations keep the shape of any buffer, sound or not. -/

namespace Sys2Proof.Machine

/-! ## The storage operations keep the shape -/

/-- A loop over Option whose every turn keeps the shape keeps it. -/
theorem foldlM_sameShape {α : Type} {f : Buffer → α → Option Buffer}
    (hf : ∀ b a b', f b a = some b' → b.sameShape b') {l : List α} {b b' : Buffer} (h : l.foldlM f b = some b') :
    b.sameShape b' :=
  foldlM_option_invariant (P := b.sameShape) (fun c a c' hc hw => hc.trans (hf c a c' hw)) l b.sameShape_refl h

theorem doublingCopy_sameShape {fuel : Nat} :
    ∀ {f : Nat} {b b' : Buffer}, doublingCopy fuel f b = some b' → b.sameShape b' := by
  induction fuel with
  | zero => intro f b b' h; cases h; exact b.sameShape_refl
  | succ fuel ih =>
    intro f b b' h
    unfold doublingCopy at h
    split at h
    · simp only [Option.bind_eq_bind, Option.bind_eq_some_iff] at h
      obtain ⟨bs, -, b1, h1, h2⟩ := h
      exact (Buffer.memWrite_sameShape h1).trans (ih h2)
    · cases h; exact b.sameShape_refl

theorem Buffer.fillAll_sameShape {b b' : Buffer} {pattern : List Byte} (h : b.fillAll pattern = some b') :
    b.sameShape b' := by
  simp only [Buffer.fillAll, Option.bind_eq_bind, Option.bind_eq_some_iff] at h
  obtain ⟨b1, h1, h2⟩ := h
  exact (Buffer.memWrite_sameShape h1).trans (doublingCopy_sameShape h2)

theorem Buffer.fillPixels_sameShape {b b' : Buffer} {pixels : List (Nat × Nat)} {v : Packed}
    (h : b.fillPixels pixels v = some b') : b.sameShape b' :=
  foldlM_sameShape (fun _ _ _ => Buffer.writePixel_sameShape) h

theorem Buffer.copyPixel_sameShape {d d' src : Buffer} {x y i r : Nat} (h : d.copyPixel src x y i r = some d') :
    d.sameShape d' := by
  simp only [Buffer.copyPixel, Option.bind_eq_bind, Option.bind_eq_some_iff] at h
  obtain ⟨v, -, hw⟩ := h
  exact Buffer.writePixel_sameShape hw

theorem Buffer.copyRow_sameShape {d d' src : Buffer} {x y r : Nat} (h : d.copyRow src x y r = some d') :
    d.sameShape d' := by
  simp only [Buffer.copyRow, Option.bind_eq_bind, Option.bind_eq_some_iff] at h
  obtain ⟨bs, -, hw⟩ := h
  exact Buffer.memWrite_sameShape hw

/-- BLIT keeps the destination's shape on either path (R170). -/
theorem Buffer.blitFrom_sameShape {d d' src : Buffer} {x y : Nat} (h : d.blitFrom src x y = some d') :
    d.sameShape d' := by
  unfold Buffer.blitFrom at h
  split at h
  · exact foldlM_sameShape (fun _ _ _ => Buffer.copyRow_sameShape) h
  · exact foldlM_sameShape (fun _ _ _ => Buffer.copyPixel_sameShape) h

/-! ## What a command can do -/

/-- What the storage operation of a command leaves of a buffer: its shape, and sound storage where it was sound. -/
def Buffer.StoredInto (b b' : Buffer) : Prop := b.sameShape b' ∧ (b.Sound → b'.Sound)

/-- `Completes s i t`: t is s with an effect that command i can have when it ends OK. Which pixel and which bytes is left
to the inversion lemma of each command; every command that answers without raising completes in this sense
(`exec_next`). -/
inductive Completes (s : State) : Instr → State → Prop where
  | config (sel : Slot) (mode : Mode) (hw : 1 ≤ s.operandW) (hh : 1 ≤ s.operandH)
      (hl : storageLength mode s.operandW.toNat s.operandH.toNat ≤ s.params.pLMax) :
      Completes s (.config sel mode) (s.setSlot sel (freshBuffer mode s.operandW.toNat s.operandH.toNat)).complete
  | addr (sel : Slot) (b : Buffer) (x y : Nat) : Completes s (.addr sel) (s.recordAccess b x y).complete
  | getpx (sel : Slot) (b : Buffer) (x y : Nat) (v : Packed) (c : Byte × Byte × Byte) :
      Completes s (.getpx sel) ((s.setPixel (v.setWidth 32) (rgbWord c)).recordAccess b x y).complete
  | setpx (sel : Slot) (b b' : Buffer) (x y : Nat) (hb : s.slot sel = some b) (hst : b.StoredInto b') :
      Completes s (.setpx sel) ((s.setSlot sel b').recordAccess b x y).complete
  | store (sel : Slot) (i : Instr) (b b' : Buffer) (hi : i ∈ [.fill sel, .fillrect sel, .blit sel, .rawwr sel])
      (hb : s.slot sel = some b) (hst : b.StoredInto b') : Completes s i (s.setSlot sel b').complete
  | rawrd (sel : Slot) (v : Byte) : Completes s (.rawrd sel) (s.setByte (v.setWidth 32)).complete

/-- A command that answers raises one code, or completes (R202, R203). -/
theorem exec_next {i : Instr} {s t : State} (h : exec i s = .next t) :
    (∃ c, c ≠ .ok ∧ t = s.raise c) ∨ Completes s i t := by
  cases i with
  | config sel mode =>
    obtain rfl | ⟨hw, hh, hl, rfl⟩ := execConfig_next h
    · exact .inl ⟨_, by decide, rfl⟩
    · exact .inr (.config sel mode hw hh hl)
  | addr sel =>
    obtain rfl | rfl | ⟨b, -, -, rfl⟩ := execAddr_next h
    · exact .inl ⟨_, by decide, rfl⟩
    · exact .inl ⟨_, by decide, rfl⟩
    · exact .inr (.addr sel b _ _)
  | getpx sel =>
    obtain rfl | rfl | ⟨b, v, -, -, -, rfl⟩ := execGetpx_next h
    · exact .inl ⟨_, by decide, rfl⟩
    · exact .inl ⟨_, by decide, rfl⟩
    · exact .inr (.getpx sel b _ _ v _)
  | setpx sel =>
    obtain rfl | rfl | ⟨b, b', hb, -, hw, rfl⟩ := execSetpx_next h
    · exact .inl ⟨_, by decide, rfl⟩
    · exact .inl ⟨_, by decide, rfl⟩
    · exact .inr (.setpx sel b b' _ _ hb ⟨Buffer.writePixel_sameShape hw, fun hs => hs.writePixel hw⟩)
  | fill sel =>
    obtain rfl | ⟨b, b', hb, hw, rfl⟩ := execFill_next h
    · exact .inl ⟨_, by decide, rfl⟩
    · exact .inr (.store sel (.fill sel) b b' (by simp) hb
        ⟨Buffer.fillAll_sameShape hw, fun hs => (hs.fillAll hw).1⟩)
  | fillrect sel =>
    obtain rfl | rfl | ⟨b, b', hb, -, hw, rfl⟩ := execFillrect_next h
    · exact .inl ⟨_, by decide, rfl⟩
    · exact .inl ⟨_, by decide, rfl⟩
    · exact .inr (.store sel (.fillrect sel) b b' (by simp) hb
        ⟨Buffer.fillPixels_sameShape hw, fun hs => (hs.fillPixels hw).1⟩)
  | invert sel => exact .inl ⟨_, by decide, execInvert_next (sel := sel) h⟩
  | blit sel =>
    obtain rfl | rfl | rfl | ⟨d, src, d', hd, -, -, -, hw, rfl⟩ := execBlit_next h
    · exact .inl ⟨_, by decide, rfl⟩
    · exact .inl ⟨_, by decide, rfl⟩
    · exact .inl ⟨_, by decide, rfl⟩
    · exact .inr (.store sel (.blit sel) d d' (by simp) hd
        ⟨Buffer.blitFrom_sameShape hw, fun hs => (hs.blitFrom hw).1⟩)
  | rawrd sel =>
    obtain rfl | rfl | ⟨b, -, -, rfl⟩ := execRawrd_next h
    · exact .inl ⟨_, by decide, rfl⟩
    · exact .inl ⟨_, by decide, rfl⟩
    · exact .inr (.rawrd sel _)
  | rawwr sel =>
    obtain rfl | rfl | ⟨b, hb, hlt, rfl⟩ := execRawwr_next h
    · exact .inl ⟨_, by decide, rfl⟩
    · exact .inl ⟨_, by decide, rfl⟩
    · exact .inr (.store sel (.rawwr sel) b _ (by simp) hb
        ⟨b.withByte_sameShape _ _, fun hs => hs.withByte _ hlt⟩)

theorem Completes.code_ok {i : Instr} {s t : State} (h : Completes s i t) : t.code = .ok := by
  cases h <;> rfl

/-- A command that completes leaves the host's side alone (R235). -/
theorem Completes.sameHostSide {i : Instr} {s t : State} (h : Completes s i t) : SameHostSide s t := by
  cases h <;> simp [SameHostSide]

/-- No command changes the host's side (R235). -/
theorem exec_sameHostSide {i : Instr} {s t : State} (h : exec i s = .next t) : SameHostSide s t := by
  rcases exec_next h with ⟨c, -, rfl⟩ | h
  · exact ⟨rfl, rfl, rfl, rfl⟩
  · exact h.sameHostSide

/-! ## What a step can do -/

/-- A step holds the state at the end of the program, reads a register, writes one that is not CMD (or none, at a
reserved offset), runs the word written to CMD, or is the platform's reset. -/
theorem step_event {s t : State} (h : step s = .next t) :
    (s.currentAction = none ∧ t = s) ∨
    (∃ w, t = s.advance.setReadData w) ∨
    (t = s.advance ∨ ∃ r w, r ≠ .cmd ∧ t = s.advance.writeReg r w) ∨
    (∃ w, s.currentAction = some (.wr s.params.pBase 32 w) ∧ runCommand w s.advance = .next t) ∨
    (s.currentAction = some .platformReset ∧ t = s.advance.platformReset) := by
  rcases step_next h with h | ⟨a, ha, h⟩
  · exact .inl h
  · rcases perform_next h with ⟨_, _, -, -, rfl⟩ | ⟨address, offset, w, rfl, hc, hw⟩ | ⟨rfl, rfl⟩
    · exact .inr (.inl ⟨_, rfl⟩)
    · rcases hostWrite_next hw with ⟨hr, hrun⟩ | ⟨r, -, hr, rfl⟩ | ⟨-, rfl⟩
      · obtain ⟨-, rfl, -, -⟩ := checkAccess_eq_ok.1 hc
        obtain rfl := offsetOf_of_registerAt hr
        exact .inr (.inr (.inr (.inl ⟨w, ha, hrun⟩)))
      · exact .inr (.inr (.inl (.inr ⟨r, w, hr, rfl⟩)))
      · exact .inr (.inr (.inl (.inl rfl)))
    · exact .inr (.inr (.inr (.inr ⟨ha, rfl⟩)))

/-- The word written to CMD raises a code, ILLEGAL for a word that is no command (R73), or is a command that
completes. -/
theorem runCommand_event {w : Word} {s t : State} (h : runCommand w s = .next t) :
    (∃ c, c ≠ .ok ∧ t = (s.writeReg .cmd w).raise c) ∨
    ∃ i, decode w = .ok i ∧ Completes (s.writeReg .cmd w) i t := by
  rcases runCommand_next h with ⟨i, hi, h⟩ | ⟨-, rfl⟩
  · exact (exec_next h).imp id fun h => ⟨i, hi, h⟩
  · exact .inl ⟨.illegal, by decide, rfl⟩

end Sys2Proof.Machine

/-! PROOFS. The invariant: what each state update needs to keep it, and that every step keeps it. -/

namespace Sys2Proof.Machine

/-! ## The reserved bits of what the commands put into the result registers -/

/-- A mask over the bits from k up is 0 on a number below 2^k. -/
theorem and_eq_zero_of_lt {x m : Word} {k : Nat} (hx : x.toNat < 2 ^ k) (hm : ∀ j < k, m.getLsbD j = false) :
    x &&& m = 0#32 := by
  refine BitVec.eq_of_getLsbD_eq fun j _ => ?_
  rw [BitVec.getLsbD_and, BitVec.getLsbD_zero]
  rcases Nat.lt_or_ge j k with hj | hj
  · rw [hm j hj, Bool.and_false]
  · have : x.getLsbD j = false := Nat.testBit_lt_two_pow (hx.trans_le (Nat.pow_le_pow_right (by decide) hj))
    rw [this, Bool.false_and]

/-- RES_VAL's bits 31:12 read 0 (R30). -/
theorem packed_reserved (v : Packed) : v.setWidth 32 &&& 0xFFFFF000#32 = 0 :=
  and_eq_zero_of_lt (k := 12) (by rw [BitVec.toNat_setWidth]; omega) (by decide)

/-- RES_BYTE's bits 31:8 read 0 (R34). -/
theorem byte_reserved (v : Byte) : v.setWidth 32 &&& 0xFFFFFF00#32 = 0 :=
  and_eq_zero_of_lt (k := 8) (by rw [BitVec.toNat_setWidth]; omega) (by decide)

/-- RES_RGB's bits 31:24 read 0 (R31). -/
theorem rgbWord_reserved (c : Byte × Byte × Byte) : rgbWord c &&& 0xFF000000#32 = 0 := by
  obtain ⟨r, g, b⟩ := c
  refine and_eq_zero_of_lt (k := 24) ?_ (by decide)
  simp only [rgbWord, BitVec.toNat_or]
  refine Nat.or_lt_two_pow (Nat.or_lt_two_pow ?_ ?_) ?_ <;> simp [Nat.shiftLeft_eq] <;> omega

/-- RES_INFO's reserved bits read 0 (R33). -/
theorem infoWord_reserved (mode : Mode) (x : Nat) : infoWord mode x &&& 0xFF0000F8#32 = 0 := by
  unfold infoWord
  cases mode <;> cases phaseOf x <;> rfl

/-! ## The updates that keep the invariant -/

section
variable {s : State} (h : s.Inv)
include h

/-- A valid slot holds a well-formed buffer (R37). -/
theorem State.Inv.slot_wf {sel : Slot} {b : Buffer} (hb : s.slot sel = some b) : b.wf s.params := by
  obtain ⟨-, h0, h1, -⟩ := h
  cases sel
  · exact h0 b hb
  · exact h1 b hb

theorem State.Inv.advance : s.advance.Inv := h

theorem State.Inv.setReadData (w : Word) : (s.setReadData w).Inv := h

theorem State.Inv.raise (c : StatusCode) : (s.raise c).Inv := by
  obtain ⟨hp, h0, h1, -, hres⟩ := h
  exact ⟨hp, h0, h1, fun _ => rfl, hres⟩

theorem State.Inv.complete : s.complete.Inv := by
  obtain ⟨hp, h0, h1, -, hres⟩ := h
  exact ⟨hp, h0, h1, fun hc => absurd rfl hc, hres⟩

theorem State.Inv.writeReg (r : RegName) (w : Word) : (s.writeReg r w).Inv := by
  cases r <;> exact h

theorem State.Inv.setSlot (sel : Slot) {b : Buffer} (hb : b.wf s.params) : (s.setSlot sel b).Inv := by
  obtain ⟨hp, h0, h1, hrest⟩ := h
  have hnew : ∀ c ∈ some b, c.wf s.params := fun c hc => Option.some.inj hc ▸ hb
  cases sel
  · exact ⟨hp, hnew, h1, hrest⟩
  · exact ⟨hp, h0, hnew, hrest⟩

theorem State.Inv.recordAccess (b : Buffer) (x y : Nat) : (s.recordAccess b x y).Inv := by
  obtain ⟨hp, h0, h1, hc, hval, hrgb, -, hbyte⟩ := h
  exact ⟨hp, h0, h1, hc, hval, hrgb, infoWord_reserved b.mode x, hbyte⟩

theorem State.Inv.setPixel (v : Packed) (c : Byte × Byte × Byte) :
    (s.setPixel (v.setWidth 32) (rgbWord c)).Inv := by
  obtain ⟨hp, h0, h1, hc, -, -, hinfo, hbyte⟩ := h
  exact ⟨hp, h0, h1, hc, packed_reserved v, rgbWord_reserved c, hinfo, hbyte⟩

theorem State.Inv.setByte (v : Byte) : (s.setByte (v.setWidth 32)).Inv := by
  obtain ⟨hp, h0, h1, hc, hval, hrgb, hinfo, -⟩ := h
  exact ⟨hp, h0, h1, hc, hval, hrgb, hinfo, byte_reserved v⟩

/-- The platform's reset makes both slots not valid and every register 0 (R230). -/
theorem State.Inv.platformReset : s.platformReset.Inv :=
  ⟨h.1, by simp⟩

/-- Storing into the buffer a slot holds keeps the invariant. -/
theorem State.Inv.setSlot_storedInto {sel : Slot} {b b' : Buffer} (hb : s.slot sel = some b)
    (hst : b.StoredInto b') : (s.setSlot sel b').Inv :=
  h.setSlot sel ((h.slot_wf hb).of_sameShape hst.1 (hst.2 (h.slot_wf hb).sound))

end

/-- The buffer CONFIG makes is well formed when its checks pass (R180, R181): an operand is below 2^31. -/
theorem freshBuffer_wf {s : State} {mode : Mode} (hw : 1 ≤ s.operandW) (hh : 1 ≤ s.operandH)
    (hl : storageLength mode s.operandW.toNat s.operandH.toNat ≤ s.params.pLMax) :
    (freshBuffer mode s.operandW.toNat s.operandH.toNat).wf s.params := by
  have hw' : s.operandW < 2 ^ 31 := BitVec.toInt_lt
  have hh' : s.operandH < 2 ^ 31 := BitVec.toInt_lt
  obtain ⟨hwf, hbelow⟩ := freshBuffer_sound mode s.operandW.toNat s.operandH.toNat
  exact ⟨⟨by simp only [freshBuffer]; omega, by simp only [freshBuffer]; omega⟩,
    ⟨by simp only [freshBuffer]; omega, by simp only [freshBuffer]; omega⟩, rfl, hl, hwf, hbelow⟩

/-! ## Commands and steps keep the invariant -/

theorem State.Inv.of_completes {i : Instr} {s t : State} (hs : s.Inv) (h : Completes s i t) : t.Inv := by
  cases h with
  | config sel mode hw hh hl => exact (hs.setSlot sel (freshBuffer_wf hw hh hl)).complete
  | addr sel b x y => exact (hs.recordAccess b x y).complete
  | getpx sel b x y v c => exact ((hs.setPixel v c).recordAccess b x y).complete
  | setpx sel b b' x y hb hst => exact ((hs.setSlot_storedInto hb hst).recordAccess b x y).complete
  | store sel _ b b' hi hb hst => exact (hs.setSlot_storedInto hb hst).complete
  | rawrd sel v => exact (hs.setByte v).complete

theorem State.Inv.of_runCommand {w : Word} {s t : State} (hs : s.Inv) (h : runCommand w s = .next t) : t.Inv := by
  have hcmd : (s.writeReg .cmd w).Inv := hs.writeReg .cmd w
  rcases runCommand_event h with ⟨c, -, rfl⟩ | ⟨i, -, h⟩
  · exact hcmd.raise c
  · exact hcmd.of_completes h

theorem State.Inv.of_step {s t : State} (hs : s.Inv) (h : step s = .next t) : t.Inv := by
  rcases step_event h with ⟨-, rfl⟩ | ⟨w, rfl⟩ | (rfl | ⟨r, w, -, rfl⟩) | ⟨w, -, h⟩ | ⟨-, rfl⟩
  · exact hs
  · exact hs.advance.setReadData w
  · exact hs.advance
  · exact hs.advance.writeReg r w
  · exact hs.advance.of_runCommand h
  · exact hs.advance.platformReset

/-- Settles O4: each of the five events a step can be keeps the invariant. -/
theorem everyStepKeepsTheInvariant : Obligations.EveryStepKeepsTheInvariant := by
  unfold Obligations.EveryStepKeepsTheInvariant
  exact fun s t hs h => hs.of_step h

end Sys2Proof.Machine

/-! PROOFS. The host's position, the slots' shape, the result registers and STATUS: what commands and steps leave of
them. -/

namespace Sys2Proof.Machine

/-! ## The host's position (R21) -/

theorem runCommand_sameHostSide {w : Word} {s t : State} (h : runCommand w s = .next t) : SameHostSide s t := by
  rcases runCommand_next h with ⟨i, -, h⟩ | ⟨-, rfl⟩
  · simpa [SameHostSide] using exec_sameHostSide h
  · exact ⟨rfl, rfl, rfl, rfl⟩

/-- Settles O7: no event of a step but the end of the program leaves the position where it was. -/
theorem eachHostActionAdvancesTheIndexByOne : Obligations.EachHostActionAdvancesTheIndexByOne := by
  unfold Obligations.EachHostActionAdvancesTheIndexByOne
  refine ⟨rfl, fun s t a ha _ h => ?_⟩
  rcases step_event h with ⟨hnone, -⟩ | ⟨w, rfl⟩ | (rfl | ⟨r, w, -, rfl⟩) | ⟨w, -, h⟩ | ⟨-, rfl⟩
  · simp [hnone] at ha
  · exact ⟨rfl, rfl⟩
  · exact ⟨rfl, rfl⟩
  · simp
  · obtain ⟨-, hprogram, hindex, -⟩ := runCommand_sameHostSide h
    exact ⟨hindex, hprogram⟩
  · exact ⟨rfl, rfl⟩

/-! ## The slots' shape (R38) -/

/-- Storing into slot sel leaves every valid slot valid with its shape. -/
theorem State.setSlot_slot_sameShape {s : State} {sel k : Slot} {b b' c : Buffer} (hb : s.slot sel = some b)
    (hs : b.sameShape b') (hc : s.slot k = some c) : ∃ c', (s.setSlot sel b').slot k = some c' ∧ c.sameShape c' := by
  rw [State.setSlot_slot]
  split
  · rename_i hk
    subst hk
    rw [hb, Option.some.injEq] at hc
    exact ⟨b', rfl, hc ▸ hs⟩
  · exact ⟨c, hc, c.sameShape_refl⟩

/-- A command that completes and is no CONFIG of slot k leaves a buffer of the same shape there. -/
theorem Completes.slot_sameShape {i : Instr} {s t : State} {k : Slot} {c : Buffer} (h : Completes s i t)
    (hc : s.slot k = some c) : (∃ c', t.slot k = some c' ∧ c.sameShape c') ∨ ∃ mode, i = .config k mode := by
  cases h with
  | config sel mode =>
    by_cases hk : k = sel
    · exact .inr ⟨mode, by rw [hk]⟩
    · exact .inl ⟨c, by simp [State.setSlot_slot, hk, hc], c.sameShape_refl⟩
  | addr | getpx | rawrd => exact .inl ⟨c, by simp [hc], c.sameShape_refl⟩
  | setpx sel b b' x y hb hst => exact .inl (by simpa using State.setSlot_slot_sameShape hb hst.1 hc)
  | store sel _ b b' hi hb hst => exact .inl (by simpa using State.setSlot_slot_sameShape hb hst.1 hc)

/-- Settles O58: of the events of a step only a CMD write whose command completes can reach a slot's shape. -/
theorem onlyASuccessfulConfigChangesASlotsShape : Obligations.OnlyASuccessfulConfigChangesASlotsShape := by
  unfold Obligations.OnlyASuccessfulConfigChangesASlotsShape
  intro s t sel b h hb hreset
  rcases step_event h with ⟨-, rfl⟩ | ⟨w, rfl⟩ | (rfl | ⟨r, w, -, rfl⟩) | ⟨w, ha, h⟩ | ⟨ha, -⟩
  · exact .inl ⟨b, hb, b.sameShape_refl⟩
  · exact .inl ⟨b, by simp [hb], b.sameShape_refl⟩
  · exact .inl ⟨b, by simp [hb], b.sameShape_refl⟩
  · exact .inl ⟨b, by simp [hb], b.sameShape_refl⟩
  · rcases runCommand_event h with ⟨c, -, rfl⟩ | ⟨i, hi, h⟩
    · exact .inl ⟨b, by simp [hb], b.sameShape_refl⟩
    · rcases h.slot_sameShape (k := sel) (c := b) (by simp [hb]) with hsame | ⟨mode, rfl⟩
      · exact .inl hsame
      · exact .inr ⟨h.code_ok, w, mode, ha, hi⟩
  · exact absurd ha hreset

/-! ## The result registers (R45) -/

/-- Settles O53: a raised code touches no result register, and a completed command those of its constructor alone. -/
theorem resultRegistersAreWrittenOnlyByTheirCommands : Obligations.ResultRegistersAreWrittenOnlyByTheirCommands := by
  unfold Obligations.ResultRegistersAreWrittenOnlyByTheirCommands
  intro i s t h
  rcases exec_next h with ⟨c, -, rfl⟩ | h
  · simp [SameResults]
  · refine ⟨fun hc => absurd h.code_ok hc, ?_⟩
    cases h <;> simp [selOf]

/-! ## STATUS (R42) -/

/-- Two outcomes are alike but for ERRSEEN of the next state. -/
def AlikeButErrSeen (r r' : Result) : Prop :=
  match r with
  | .next t => ∃ e, r' = .next { t with errSeen := e }
  | .fault f => r' = .fault f
  | .refused x => r' = .refused x

/-- One check, decided alike, between outcomes that are alike. -/
theorem AlikeButErrSeen.ite {p : Prop} [Decidable p] {r₁ r₁' r₂ r₂' : Result} (h₁ : AlikeButErrSeen r₁ r₁')
    (h₂ : AlikeButErrSeen r₂ r₂') : AlikeButErrSeen (if p then r₁ else r₂) (if p then r₁' else r₂') := by
  split
  · exact h₁
  · exact h₂

/-- s with another STATUS. -/
def State.withStatus (s : State) (c : StatusCode) (e : Bool) : State := { s with code := c, errSeen := e }

section
variable (s : State) (c : StatusCode) (e : Bool)

theorem raise_withStatus_alike (x : StatusCode) :
    AlikeButErrSeen (.next (s.raise x)) (.next ((s.withStatus c e).raise x)) := ⟨true, rfl⟩

theorem complete_withStatus_alike : AlikeButErrSeen (.next s.complete) (.next (s.withStatus c e).complete) := ⟨e, rfl⟩

theorem State.setSlot_withStatus (sel : Slot) (b : Buffer) :
    (s.withStatus c e).setSlot sel b = (s.setSlot sel b).withStatus c e := by cases sel <;> rfl

theorem State.slot_withStatus (sel : Slot) : (s.withStatus c e).slot sel = s.slot sel := by cases sel <;> rfl

variable {s c e}

/-- The slot check does not read STATUS. -/
theorem withBuffer_withStatus_alike {sel : Slot} {k k' : Buffer → Result} (hk : ∀ b, AlikeButErrSeen (k b) (k' b)) :
    AlikeButErrSeen (withBuffer s sel k) (withBuffer (s.withStatus c e) sel k') := by
  cases hb : s.slot sel with
  | none =>
    rw [withBuffer_none hb, withBuffer_none (by rw [State.slot_withStatus, hb])]
    exact raise_withStatus_alike s c e _
  | some b =>
    rw [withBuffer_some hb, withBuffer_some (by rw [State.slot_withStatus, hb])]
    exact hk b

/-- The coordinate check does not read STATUS. -/
theorem withPixel_withStatus_alike {sel : Slot} {k k' : Buffer → Nat → Nat → Result}
    (hk : ∀ b x y, AlikeButErrSeen (k b x y) (k' b x y)) :
    AlikeButErrSeen (withPixel s sel k) (withPixel (s.withStatus c e) sel k') :=
  withBuffer_withStatus_alike fun b => .ite (hk b _ _) (raise_withStatus_alike s c e _)

/-- A storage operation is the same for both, so its fault is. -/
theorem withStored_withStatus_alike {α : Type} (r : Option α) {k k' : α → State}
    (hk : ∀ a, k' a = (k a).withStatus c e) : AlikeButErrSeen (withStored r k) (withStored r k') := by
  cases r with
  | none => rfl
  | some a => rw [withStored_some, withStored_some, hk a]; exact complete_withStatus_alike _ c e

end

/-- A command at s and at s with another STATUS passes the same checks, asks the storage the same and ends alike. -/
theorem exec_withStatus_alike (i : Instr) (s : State) (c : StatusCode) (e : Bool) :
    AlikeButErrSeen (exec i s) (exec i (s.withStatus c e)) := by
  have raised := raise_withStatus_alike s c e
  have stored := State.setSlot_withStatus s c e
  cases i with
  | config sel mode =>
    refine .ite (raised _) (.ite (raised _) ?_)
    rw [stored]
    exact complete_withStatus_alike _ c e
  | addr sel => exact withPixel_withStatus_alike fun b x y => complete_withStatus_alike _ c e
  | getpx sel => exact withPixel_withStatus_alike fun b x y => withStored_withStatus_alike _ fun v => rfl
  | setpx sel =>
    exact withPixel_withStatus_alike fun b x y => withStored_withStatus_alike _ fun b' => by rw [stored]; rfl
  | fill sel => exact withBuffer_withStatus_alike fun b => withStored_withStatus_alike _ (stored sel)
  | fillrect sel =>
    exact withBuffer_withStatus_alike fun b => .ite (raised _) (withStored_withStatus_alike _ (stored sel))
  | invert sel => exact raised _
  | blit sel =>
    exact withBuffer_withStatus_alike fun d => withBuffer_withStatus_alike fun src =>
      .ite (raised _) (.ite (raised _) (withStored_withStatus_alike _ (stored sel)))
  | rawrd sel =>
    exact withBuffer_withStatus_alike fun b => .ite (raised _) (withStored_withStatus_alike _ fun v => rfl)
  | rawwr sel =>
    exact withBuffer_withStatus_alike fun b => .ite (raised _) (withStored_withStatus_alike _ (stored sel))

/-- Settles O52: STATUS enters no check and no storage operation, and only ERRSEEN outlives a command. -/
theorem noCommandReadsStatus : Obligations.NoCommandReadsStatus := by
  unfold Obligations.NoCommandReadsStatus
  exact exec_withStatus_alike

end Sys2Proof.Machine

/-! PROOFS. The host's port: the step of a read and of a write at an offset, and what the views of STATUS and the slots
show. -/

namespace Sys2Proof.Machine

/-! ## The step of an access at an offset -/

/-- An access that R56 gives a step passes the check. -/
theorem checkAccess_of_legal {offset : Nat} (p : Params) (hlt : offset < 0x100) (hal : offset % 4 = 0) :
    checkAccess p (p.pBase + offset) 32 = .ok offset := checkAccess_eq_ok.2 ⟨rfl, rfl, hlt, hal⟩

/-- A read at a legal offset steps to the value kept in readData (R57). -/
theorem step_read {s : State} {offset : Nat} (hlt : offset < 0x100) (hal : offset % 4 = 0)
    (h : s.currentAction = some (.rd (s.params.pBase + offset) 32)) :
    step s = .next (s.advance.setReadData (s.readOffset offset)) := by
  rw [step_of_action h, perform, State.advance_params, checkAccess_of_legal _ hlt hal]
  rfl

/-- A write at a legal offset steps to the host write there (R57). -/
theorem step_write {s : State} {offset : Nat} {w : Word} (hlt : offset < 0x100) (hal : offset % 4 = 0)
    (h : s.currentAction = some (.wr (s.params.pBase + offset) 32 w)) : step s = hostWrite offset w s.advance := by
  rw [step_of_action h, perform, State.advance_params, checkAccess_of_legal _ hlt hal]

theorem offsetOf_lt_space (r : RegName) : offsetOf r < 0x100 := (offsetOf_legal r).1.trans (by decide)

theorem step_read_register {s : State} {r : RegName}
    (h : s.currentAction = some (.rd (s.params.pBase + offsetOf r) 32)) :
    step s = .next { s with index := s.index + 1, readData := some (s.readReg r) } := by
  rw [step_read (offsetOf_lt_space r) (offsetOf_legal r).2 h, State.readOffset_offsetOf]
  rfl

/-- A host write to a register that is not CMD runs nothing. -/
theorem hostWrite_offsetOf {r : RegName} (hr : r ≠ .cmd) (w : Word) (s : State) :
    hostWrite (offsetOf r) w s = .next (s.writeReg r w) := by
  unfold hostWrite
  rw [registerAt_offsetOf]
  split
  case h_1 hc => exact absurd (Option.some.inj hc) hr
  case h_2 hc => rw [Option.some.inj hc]
  case h_3 hc => cases hc

/-- A write to a register that is not CMD stores the word there. -/
theorem step_write_register {s : State} {r : RegName} {w : Word} (hr : r ≠ .cmd)
    (h : s.currentAction = some (.wr (s.params.pBase + offsetOf r) 32 w)) :
    step s = .next (s.advance.writeReg r w) := by
  rw [step_write (offsetOf_lt_space r) (offsetOf_legal r).2 h, hostWrite_offsetOf hr]

/-- A write to CMD runs the word (R23). -/
theorem step_write_cmd {s : State} {w : Word} (h : s.currentAction = some (.wr s.params.pBase 32 w)) :
    step s = runCommand w s.advance :=
  step_write (offset := offsetOf .cmd) (offsetOf_lt_space .cmd) (offsetOf_legal .cmd).2 h

/-! ## A word written to CMD (R23, R73) -/

theorem runCommand_of_decode {w : Word} {i : Instr} (h : decode w = .ok i) (s : State) :
    runCommand w s = exec i { s with cmd := w } := by
  rw [runCommand, h]
  rfl

theorem runCommand_of_illegal {w : Word} (h : ∀ i, decode w ≠ .ok i) (s : State) :
    runCommand w s = .next { s with cmd := w, code := .illegal, errSeen := true } := by
  cases hd : decode w with
  | ok i => exact absurd hd (h i)
  | error e => rw [runCommand, hd]; rfl

/-- Settles O6, by the step of a CMD write and what runs there of a legal and of an illegal word. -/
theorem stepRunsTheDecodedCommand : Obligations.StepRunsTheDecodedCommand := by
  unfold Obligations.StepRunsTheDecodedCommand
  refine ⟨fun s w h => ?_, fun s i w hi => ?_⟩
  · rw [step_write_cmd h]
    exact ⟨rfl, fun i hi => runCommand_of_decode hi _, fun hi => runCommand_of_illegal hi _⟩
  · have hw : BitVec.ofNat 32 (w.toNat % 2 ^ 32) = w := by rw [Nat.mod_eq_of_lt w.isLt]; simp
    rw [step_withFetchWord, hw]
    exact runCommand_of_decode hi _

/-! ## Reads (R22) -/

/-- The registers in the order of the register map (R22). -/
def registerMap : List RegName :=
  [.cmd, .status, .opx, .opy, .opw, .oph, .opv, .opi, .opb, .resVal, .resRgb, .resAddr, .resInfo, .resByte,
    .s0Cfg, .s0W, .s0H, .s0Len, .s1Cfg, .s1W, .s1H, .s1Len]

/-- Settles O14: the pairs listed are the registers of the map, each at its offset with what it reads. -/
theorem readsReturnTheRegisterAndChangeNothing : Obligations.ReadsReturnTheRegisterAndChangeNothing := by
  unfold Obligations.ReadsReturnTheRegisterAndChangeNothing
  intro s offset value hmem h
  have hmap : (offset, value) ∈ registerMap.map fun r => (offsetOf r, s.readReg r) := hmem
  obtain ⟨r, -, hr⟩ := List.mem_map.1 hmap
  obtain ⟨rfl, rfl⟩ := Prod.mk.inj hr
  exact step_read_register h

/-! ## Reserved offsets (R40) -/

theorem offsetOf_ne_reserved (r : RegName) : offsetOf r ≠ 0x38 ∧ offsetOf r ≠ 0x3C := by cases r <;> decide

theorem registerAt_reserved {offset : Nat} (h : offset = 0x38 ∨ offset = 0x3C ∨ 0x60 ≤ offset) :
    registerAt offset = none := by
  cases hr : registerAt offset with
  | none => rfl
  | some r =>
    have := offsetOf_of_registerAt hr
    have := offsetOf_ne_reserved r
    have := offsetOf_legal r
    omega

/-- Settles O15: no register stands at a reserved offset. -/
theorem reservedOffsetsReadZeroAndIgnoreWrites : Obligations.ReservedOffsetsReadZeroAndIgnoreWrites := by
  unfold Obligations.ReservedOffsetsReadZeroAndIgnoreWrites
  intro s offset hres hlt hal
  have hnone := registerAt_reserved hres
  constructor
  · intro h
    rw [step_read hlt hal h, State.readOffset, hnone]
    rfl
  · intro w h
    rw [step_write hlt hal h, hostWrite, hnone]
    rfl

/-! ## Writes to registers that are not CMD (R25 to R29, R41) -/

/-- STATUS, the result registers and the slots' registers, in the order of the map (R41). -/
def readOnlyRegisters : List RegName :=
  [.status, .resVal, .resRgb, .resAddr, .resInfo, .resByte, .s0Cfg, .s0W, .s0H, .s0Len, .s1Cfg, .s1W, .s1H, .s1Len]

theorem cmd_not_readOnly : RegName.cmd ∉ readOnlyRegisters := by decide

theorem writeReg_readOnly {r : RegName} (hr : r ∈ readOnlyRegisters) (s : State) (w : Word) : s.writeReg r w = s := by
  revert r
  simp [readOnlyRegisters, State.writeReg]

/-- Settles O16: the offsets listed are those of the read-only registers, where a write stores nothing. -/
theorem readOnlyRegistersIgnoreWrites : Obligations.ReadOnlyRegistersIgnoreWrites := by
  unfold Obligations.ReadOnlyRegistersIgnoreWrites
  intro s w offset hmem h
  obtain ⟨r, hr, rfl⟩ := List.mem_map.1 (show offset ∈ readOnlyRegisters.map offsetOf from hmem)
  rw [step_write_register (fun hc => cmd_not_readOnly (hc ▸ hr)) h, writeReg_readOnly hr]
  rfl

/-- Settles O17: each offset is an operand register's, where a write stores the word. -/
theorem operandWritesStoreEveryBitAndNothingElse : Obligations.OperandWritesStoreEveryBitAndNothingElse := by
  unfold Obligations.OperandWritesStoreEveryBitAndNothingElse
  intro s offset w h
  have stores : ∀ r : RegName, r ≠ .cmd → offset = offsetOf r → step s = .next (s.advance.writeReg r w) :=
    fun r hr ho => step_write_register hr (ho ▸ h)
  exact ⟨stores .opx (by decide), stores .opy (by decide), stores .opw (by decide), stores .oph (by decide),
    stores .opv (by decide), stores .opi (by decide), stores .opb (by decide)⟩

/-! ## STATUS and the slots' registers as numbers (R24, R35, R36) -/

/-- Settles O20, code by code. -/
theorem statusReadsItsCodeAndStickyBit : Obligations.StatusReadsItsCodeAndStickyBit := by
  unfold Obligations.StatusReadsItsCodeAndStickyBit
  refine ⟨fun s => ?_, rfl, rfl, rfl, rfl, rfl, rfl, rfl, rfl, rfl⟩
  show (statusWord s.code s.errSeen).toNat = _
  cases s.code <;> cases s.errSeen <;> rfl

theorem regOfNat_toNat {n : Nat} (h : n < 2 ^ 32) : (regOfNat n).toNat = n := by
  rw [regOfNat, if_pos h, BitVec.toNat_ofNat, Nat.mod_eq_of_lt h]

theorem cfgWord_toNat (b : Buffer) : (cfgWord (some b)).toNat = 2 ^ 31 + (if b.mode = .rgb444 then 1 else 0) := by
  simp only [cfgWord]
  cases b.mode <;> rfl

/-- Settles O21: a well-formed buffer's width and height fit 32 bits, so its registers show the numbers. -/
theorem slotRegistersShowTheSlotFields : Obligations.SlotRegistersShowTheSlotFields := by
  unfold Obligations.SlotRegistersShowTheSlotFields
  intro s sel cfg w h len hs hsel
  have shown : s.readReg cfg = cfgWord (s.slot sel) ∧ s.readReg w = fieldWord (s.slot sel) Buffer.width ∧
      s.readReg h = fieldWord (s.slot sel) Buffer.height ∧ s.readReg len = fieldWord (s.slot sel) Buffer.len := by
    rcases hsel with ⟨rfl, rfl, rfl, rfl, rfl⟩ | ⟨rfl, rfl, rfl, rfl, rfl⟩ <;> exact ⟨rfl, rfl, rfl, rfl⟩
  obtain ⟨hcfg, hw, hh, hlen⟩ := shown
  rw [hcfg, hw, hh, hlen]
  constructor
  · intro hb
    rw [hb]
    exact ⟨rfl, rfl, rfl, rfl⟩
  · intro b hb
    obtain ⟨hwidth, hheight, -⟩ := hs.slot_wf hb
    rw [hb]
    exact ⟨cfgWord_toNat b, regOfNat_toNat (by omega), regOfNat_toNat (by omega), regOfNat_toNat⟩

end Sys2Proof.Machine

/-! PROOFS. The accesses PPAC has a step for, and what a step that runs no command leaves alone. -/

namespace Sys2Proof.Machine

/-! ## The accesses the check refuses (R50, R56) -/

theorem checkAccess_of_width {p : Params} {address width : Nat} (h : width ≠ 32) :
    checkAccess p address width = .error .accessWidth := if_pos h

theorem checkAccess_of_outside {p : Params} {address : Nat} (h : address < p.pBase ∨ p.pBase + 0x100 ≤ address) :
    checkAccess p address 32 = .error .outsideRegisterSpace := by
  rw [checkAccess, if_neg (by decide), if_pos h]

theorem checkAccess_of_misaligned {p : Params} {offset : Nat} (hlt : offset < 0x100) (h : offset % 4 ≠ 0) :
    checkAccess p (p.pBase + offset) 32 = .error .misalignedAccess := by
  rw [checkAccess, if_neg (by decide), if_neg (by omega), if_pos (by rwa [Nat.add_sub_cancel_left])]

/-- A read or a write that the check refuses is refused by the step. -/
theorem step_of_checkAccess_error {s : State} {a : HostAction} {address width : Nat} {r : Refusal}
    (ha : s.currentAction = some a) (haccess : a = .rd address width ∨ ∃ w, a = .wr address width w)
    (hr : checkAccess s.params address width = .error r) : step s = .refused r := by
  rcases haccess with rfl | ⟨w, rfl⟩ <;> rw [step_of_action ha, perform, State.advance_params, hr]

/-! ## What never stops a command -/

theorem next_ne_refused (x : Refusal) (t : State) : (.next t : Result) ≠ .refused x := nofun

section
variable {s : State} {sel : Slot} {o : Result} (ho : ∀ t, .next t ≠ o)
include ho

/-- The slot check stops with o only where the rest of the command does, o being a fault or a refusal. -/
theorem withBuffer_ne {k : Buffer → Result} (hk : ∀ b, s.slot sel = some b → k b ≠ o) : withBuffer s sel k ≠ o := by
  cases hb : s.slot sel with
  | none => rw [withBuffer_none hb]; exact ho _
  | some b => rw [withBuffer_some hb]; exact hk b hb

/-- The coordinate check hands the rest of the command a pixel of the buffer. -/
theorem withPixel_ne {k : Buffer → Nat → Nat → Result}
    (hk : ∀ b x y, s.slot sel = some b → b.inRange x y → k b x y ≠ o) : withPixel s sel k ≠ o := by
  refine withBuffer_ne ho fun b hb => ?_
  split
  · exact hk b _ _ hb ⟨by omega, by omega⟩
  · exact ho _

theorem raise_or_ne {p : Prop} [Decidable p] {c : StatusCode} {r : Result} (hr : ¬p → r ≠ o) :
    (if p then .next (s.raise c) else r) ≠ o := by
  split
  · exact ho _
  · exact hr ‹_›

theorem runCommand_ne {w : Word} (hexec : ∀ i, exec i (s.writeReg .cmd w) ≠ o) : runCommand w s ≠ o := by
  unfold runCommand
  split
  · exact hexec _
  · exact ho _

theorem hostWrite_ne {offset : Nat} {w : Word} (hexec : ∀ i, exec i (s.writeReg .cmd w) ≠ o) :
    hostWrite offset w s ≠ o := by
  unfold hostWrite
  split
  · exact runCommand_ne ho hexec
  · exact ho _
  · exact ho _

end

/-- Every command of the table has its meaning (R72). -/
theorem exec_ne_refused (i : Instr) (s : State) (x : Refusal) : exec i s ≠ .refused x := by
  have ho := next_ne_refused x
  have stored {α : Type} (r : Option α) (k : α → State) := withStored_ne_refused r k x
  cases i with
  | config sel mode => exact raise_or_ne ho fun _ => raise_or_ne ho fun _ => ho _
  | addr sel => exact withPixel_ne ho fun b x y _ _ => ho _
  | getpx sel => exact withPixel_ne ho fun b x y _ _ => stored _ _
  | setpx sel => exact withPixel_ne ho fun b x y _ _ => stored _ _
  | fill sel => exact withBuffer_ne ho fun b _ => stored _ _
  | fillrect sel => exact withBuffer_ne ho fun b _ => raise_or_ne ho fun _ => stored _ _
  | invert sel => exact ho _
  | blit sel =>
    exact withBuffer_ne ho fun d _ => withBuffer_ne ho fun src _ =>
      raise_or_ne ho fun _ => raise_or_ne ho fun _ => stored _ _
  | rawrd sel => exact withBuffer_ne ho fun b _ => raise_or_ne ho fun _ => stored _ _
  | rawwr sel => exact withBuffer_ne ho fun b _ => raise_or_ne ho fun _ => stored _ _

/-- Settles O12: the check refuses by width and by alignment, and past the check neither a read nor a write is
refused. -/
theorem onlyAlignedWordAccessesHaveAStep : Obligations.OnlyAlignedWordAccessesHaveAStep := by
  unfold Obligations.OnlyAlignedWordAccessesHaveAStep
  intro s offset width a hlt ha haccess
  refine ⟨fun hw => step_of_checkAccess_error ha haccess (checkAccess_of_width hw), ?_, ?_⟩
  · rintro rfl hal
    exact step_of_checkAccess_error ha haccess (checkAccess_of_misaligned hlt hal)
  · rintro rfl hal x
    rcases haccess with rfl | ⟨w, rfl⟩
    · rw [step_read hlt hal ha]; exact next_ne_refused x _
    · rw [step_write hlt hal ha]; exact hostWrite_ne (next_ne_refused x) fun i => exec_ne_refused i _ x

/-- Settles O13: the check looks at the width and then at the space. -/
theorem accessesOutsideTheSpaceAreRefused : Obligations.AccessesOutsideTheSpaceAreRefused := by
  unfold Obligations.AccessesOutsideTheSpaceAreRefused
  intro s address width a ha haccess hout
  refine ⟨?_, fun hw => step_of_checkAccess_error ha haccess (checkAccess_of_width hw)⟩
  rintro rfl
  exact step_of_checkAccess_error ha haccess (checkAccess_of_outside hout)

/-! ## What an access other than a CMD write leaves alone (R57) -/

theorem State.writeReg_cmd_of_ne {s : State} {r : RegName} {w : Word} (h : r ≠ .cmd) :
    (s.writeReg r w).cmd = s.cmd := by
  cases r
  case cmd => exact absurd rfl h
  all_goals rfl

/-- Settles O18: of the five events of a step, a read and a write to another register touch nothing the statement
names. -/
theorem onlyCmdWritesActOnResultsAndSlots : Obligations.OnlyCmdWritesActOnResultsAndSlots := by
  unfold Obligations.OnlyCmdWritesActOnResultsAndSlots
  intro s t a ha h hreset hcmd
  rcases step_event h with ⟨hnone, -⟩ | ⟨w, rfl⟩ | (rfl | ⟨r, w, hr, rfl⟩) | ⟨w, hw, -⟩ | ⟨hw, -⟩
  · rw [ha] at hnone; cases hnone
  · simp [SameResults, SameSlots]
  · simp [SameResults, SameSlots]
  · simp [SameResults, SameSlots, State.writeReg_cmd_of_ne hr]
  · exact absurd (Option.some.inj (ha.symm.trans hw)) (hcmd w)
  · exact absurd (Option.some.inj (ha.symm.trans hw)) hreset

/-! ## The slot a command does not name (R65) -/

/-- A command that completes writes its own slot or none. -/
theorem Completes.slot_other {i : Instr} {s t : State} (h : Completes s i t) :
    t.slot (otherSlot (selOf i)) = s.slot (otherSlot (selOf i)) := by
  cases h with
  | config | addr | getpx | setpx | rawrd => simp [selOf]
  | store sel _ b b' hi =>
    have hsel : selOf i = sel := by
      simp only [List.mem_cons, List.not_mem_nil, or_false] at hi
      rcases hi with rfl | rfl | rfl | rfl <;> rfl
    rw [hsel, State.complete_slot, State.setSlot_slot_other]

/-- Settles O55: a raised code changes no slot, and a completed command only the slot in SEL. -/
theorem noCommandChangesTheOtherSlot : Obligations.NoCommandChangesTheOtherSlot := by
  unfold Obligations.NoCommandChangesTheOtherSlot
  intro i s t h
  rcases exec_next h with ⟨c, -, rfl⟩ | h
  · exact State.raise_slot s c _
  · exact h.slot_other

end Sys2Proof.Machine

/-! PROOFS. Storage indices stay below L (R51) and padding nibbles stay as they are (R55): every pixel of a buffer and
every row of the blit's fast path lies inside the storage, and neither writes a bit that no in-range pixel owns. -/

namespace Sys2Proof.Machine

/-! ## Where a pixel's bytes lie (R104) -/

/-- Row y of a width and height that hold it ends at or before pixel W * H. -/
theorem row_end_le {w h y : Nat} (hy : y < h) : y * w + w ≤ w * h := by
  rw [← Nat.succ_mul, Nat.mul_comm w]
  exact Nat.mul_le_mul_right w hy

/-- Every byte an in-range pixel touches lies inside the storage (R104). -/
theorem addressOf_touched_le {w h x y : Nat} (mode : Mode) (hx : x < w) (hy : y < h) :
    addressOf mode w x y + bytesTouched mode ≤ storageLength mode w h := by
  have hrow := row_end_le (w := w) hy
  unfold storageLength
  cases mode with
  | gray4 => simp only [addressOf_gray4, bytesTouched_gray4, bitsPerPixel]; omega
  | rgb444 =>
    rcases Nat.mod_two_eq_zero_or_one x with hp | hp
    · simp only [addressOf_rgb444_even hp, bytesTouched_rgb444, bitsPerPixel]; omega
    · simp only [addressOf_rgb444_odd hp, bytesTouched_rgb444, bitsPerPixel]; omega

theorem Buffer.wf.touched_le {p : Params} {b : Buffer} {x y : Nat} (h : b.wf p) (hr : b.inRange x y) :
    addressOf b.mode b.width x y + bytesTouched b.mode ≤ b.len :=
  h.len_eq ▸ addressOf_touched_le b.mode hr.1 hr.2

/-! ## The pair of pixels at an even x (R54, R106) -/

/-- The whole bytes that the pixels x and x + 1 of a row fill together, x being even. -/
def pairBytes : Mode → Nat
  | .gray4 => 1
  | .rgb444 => 3

theorem rowBytes_eq_pairs (mode : Mode) (w : Nat) : rowBytes mode w = w / 2 * pairBytes mode := by
  cases mode <;> simp [rowBytes, pairBytes]

section
variable {mode : Mode} {w x y : Nat} (hx : x % 2 = 0)
include hx

/-- The pair that is q pairs further on starts q pairs of bytes further on. -/
theorem addressOf_pair (q : Nat) :
    addressOf mode w (x + 2 * q) y = addressOf mode w x y + q * pairBytes mode := by
  cases mode with
  | gray4 => simp only [addressOf_gray4, pairBytes]; omega
  | rgb444 =>
    rw [addressOf_rgb444_even hx, addressOf_rgb444_even (by omega), pairBytes]
    omega

/-- The second pixel of a pair ends where the pair does. -/
theorem addressOf_second_end :
    addressOf mode w (x + 1) y + bytesTouched mode = addressOf mode w x y + pairBytes mode := by
  cases mode with
  | gray4 => simp only [addressOf_gray4, bytesTouched_gray4, pairBytes]; omega
  | rgb444 =>
    rw [addressOf_rgb444_even hx, addressOf_rgb444_odd (by omega), bytesTouched_rgb444, pairBytes]
    omega

/-- Every bit of a pair's bytes belongs to one of its two pixels. -/
theorem pair_ownsBit {m j : Nat} (hm : m < pairBytes mode) (hj : j < 8) :
    ownsBit mode w x y (addressOf mode w x y + m) j ∨ ownsBit mode w (x + 1) y (addressOf mode w x y + m) j := by
  have hend := addressOf_second_end (mode := mode) (w := w) (y := y) hx
  have hodd : phaseOf (x + 1) = .odd := phaseOf_of_odd (by omega)
  have first := maskAt_addressOf mode w x y
  have firstNext := maskAt_addressOf_succ mode w x y
  have second := maskAt_addressOf mode w (x + 1) y
  have secondNext := maskAt_addressOf_succ mode w (x + 1) y
  rw [phaseOf_of_even hx] at first firstNext
  rw [hodd] at second secondNext
  unfold ownsBit
  cases mode with
  | gray4 =>
    rw [bytesTouched_gray4, pairBytes, Nat.add_right_cancel_iff] at hend
    rw [hend] at second
    obtain rfl : m = 0 := Nat.lt_one_iff.1 hm
    rw [Nat.add_zero, first, second]
    revert j; decide
  | rgb444 =>
    have hsecond : addressOf .rgb444 w (x + 1) y = addressOf .rgb444 w x y + 1 := by
      simp only [bytesTouched_rgb444, pairBytes] at hend; omega
    rw [hsecond] at second secondNext
    obtain rfl | rfl | rfl : m = 0 ∨ m = 1 ∨ m = 2 := by simp only [pairBytes] at hm; omega
    · rw [Nat.add_zero, first]
      exact .inl (by revert j; decide)
    · rw [firstNext, second]
      revert j; decide
    · rw [secondNext]
      exact .inr (by revert j; decide)

end

/-! ## The rows of the fast path (R166, R167) -/

/-- The fast path starts at an even x and copies rows of an even width (R164, R165). -/
theorem fastPath_even {d src : Buffer} {x : Nat} (h : fastPath d src x = true) : x % 2 = 0 ∧ src.width % 2 = 0 := by
  unfold fastPath at h
  split at h
  · exact of_decide_eq_true h
  · exact (of_decide_eq_true h).2

theorem rowSource_eq_addressOf (mode : Mode) (w r : Nat) : rowSource mode w r = addressOf mode w 0 r := by
  cases mode with
  | gray4 => simp [rowSource, addressOf_gray4]
  | rgb444 => simp [rowSource, addressOf_rgb444_even]

theorem rowTarget_eq_addressOf {x : Nat} (mode : Mode) (hx : x % 2 = 0) (w y r : Nat) :
    rowTarget mode w x y r = addressOf mode w x (y + r) := by
  cases mode with
  | gray4 => rw [rowTarget, addressOf_gray4, Nat.mul_comm w]; omega
  | rgb444 => rw [rowTarget, addressOf_rgb444_even hx, Nat.mul_comm w, Nat.add_comm x]

section
variable {mode : Mode} {w x y n : Nat} (hx : x % 2 = 0) (hn : n % 2 = 0) (hw : x + n ≤ w)
include hx hn hw

/-- The bytes of n pixels of a row, x and n being even, lie inside the storage. -/
theorem row_le_storageLength {h : Nat} (hpos : 0 < n) (hy : y < h) :
    addressOf mode w x y + rowBytes mode n ≤ storageLength mode w h := by
  obtain ⟨q, rfl⟩ : ∃ q, n = 2 * q + 2 := ⟨n / 2 - 1, by omega⟩
  have hlast := addressOf_touched_le mode (show x + 2 * q + 1 < w by omega) hy
  rw [addressOf_second_end (by omega), addressOf_pair hx] at hlast
  rw [rowBytes_eq_pairs, show (2 * q + 2) / 2 = q + 1 by omega, Nat.succ_mul]
  omega

/-- Every bit of those bytes belongs to one of the n pixels. -/
theorem row_ownsBit {k j : Nat} (hj : j < 8) (hk : addressOf mode w x y ≤ k)
    (hk' : k < addressOf mode w x y + rowBytes mode n) : ∃ x', x' < w ∧ ownsBit mode w x' y k j := by
  have hpos : 0 < pairBytes mode := by cases mode <;> decide
  obtain ⟨d, rfl⟩ := Nat.exists_eq_add_of_le hk
  rw [rowBytes_eq_pairs, Nat.add_lt_add_iff_left, ← Nat.div_lt_iff_lt_mul hpos] at hk'
  have hpair := pair_ownsBit (mode := mode) (w := w) (x := x + 2 * (d / pairBytes mode)) (y := y) (by omega)
    (Nat.mod_lt d hpos) hj
  rw [addressOf_pair hx, Nat.add_assoc, Nat.div_add_mod'] at hpair
  rcases hpair with h | h
  · exact ⟨_, by omega, h⟩
  · exact ⟨_, by omega, h⟩

end

/-! ## What the pixel writers leave of a buffer (R55) -/

/-- No in-range pixel of the buffer owns bit j of storage byte k: it is part of a padding nibble (R55). -/
def Buffer.isPadding (b : Buffer) (k j : Nat) : Prop := ∀ x y, b.inRange x y → ¬ownsBit b.mode b.width x y k j

/-- b' is b after pixel writes: the shape, sound storage and every padding bit as before. -/
structure Buffer.PixelsWritten (b b' : Buffer) : Prop where
  continues : b.Continues b'
  padding : ∀ k j, b.isPadding k j → (b'.byte k).getLsbD j = (b.byte k).getLsbD j

theorem Buffer.PixelsWritten.refl {b : Buffer} (h : b.Sound) : b.PixelsWritten b := ⟨.refl h, fun _ _ _ => rfl⟩

theorem Buffer.sameShape.isPadding {b b' : Buffer} (h : b.sameShape b') {k j : Nat} (hp : b.isPadding k j) :
    b'.isPadding k j := by
  obtain ⟨hm, hw, hh, -⟩ := h
  simpa only [Buffer.isPadding, Buffer.inRange, hm, hw, hh] using hp

theorem Buffer.PixelsWritten.trans {a b c : Buffer} (h : a.PixelsWritten b) (h' : b.PixelsWritten c) :
    a.PixelsWritten c :=
  ⟨h.continues.trans h'.continues, fun k j hp =>
    (h'.padding k j (h.continues.2.isPadding hp)).trans (h.padding k j hp)⟩

/-- The lanes put no bit outside the masks (R106, R107). -/
theorem alignLanes_subset_masks (mode : Mode) (ph : Phase) (v : Packed) (j : Nat) :
    ((alignLanes mode ph v).1.getLsbD j = true → (pixelMasks mode ph).1.getLsbD j = true) ∧
    ((alignLanes mode ph v).2.getLsbD j = true → (pixelMasks mode ph).2.getLsbD j = true) := by
  rcases Nat.lt_or_ge j 8 with hj | hj
  · cases mode <;> cases ph <;> simp only [alignLanes, pixelMasks] <;> interval_cases j <;> simp
  · simp [BitVec.getLsbD_of_ge _ j hj]

/-- A pixel's lanes put no bit where the pixel owns none. -/
theorem ownsBit_of_laneAt {mode : Mode} {w x y k j : Nat} {v : Packed}
    (h : (laneAt mode w x y k v).getLsbD j = true) : ownsBit mode w x y k j := by
  obtain ⟨hfst, hsnd⟩ := alignLanes_subset_masks mode (phaseOf x) v j
  unfold laneAt at h
  unfold ownsBit maskAt
  split_ifs at h ⊢
  · exact hfst h
  · exact hsnd h
  · simp at h

/-- A write at a pixel keeps every bit the pixel does not own (R109). -/
theorem writeBack_getLsbD_of_not_owns {mode : Mode} {w x y k j : Nat} (old : Byte) (v : Packed)
    (h : ¬ownsBit mode w x y k j) :
    (writeBack old (maskAt mode w x y k) (laneAt mode w x y k v)).getLsbD j = old.getLsbD j := by
  have hmask : (maskAt mode w x y k).getLsbD j = false := Bool.eq_false_iff.2 h
  have hlane : (laneAt mode w x y k v).getLsbD j = false := Bool.eq_false_iff.2 fun hl => h (ownsBit_of_laneAt hl)
  by_cases hj : j < 8
  · simp only [writeBack, BitVec.getLsbD_or, BitVec.getLsbD_and, BitVec.getLsbD_not, hmask, hlane, hj, decide_true,
      Bool.not_false, Bool.and_true, Bool.or_false]
  · rw [BitVec.getLsbD_of_ge _ _ (by omega), BitVec.getLsbD_of_ge _ _ (by omega)]

/-- WritePixel at an in-range pixel (R113). -/
theorem Buffer.wf.writePixel_written {p : Params} {b : Buffer} {x y : Nat} (hb : b.wf p) (hr : b.inRange x y)
    (v : Packed) : ∃ b', b.writePixel x y v = some b' ∧ b.PixelsWritten b' := by
  obtain ⟨b', hw, hs, hsh, hk⟩ := hb.sound.writePixel_of_le v (hb.touched_le hr)
  exact ⟨b', hw, ⟨hs, hsh⟩, fun k j hp => by rw [hk, writeBack_getLsbD_of_not_owns _ v (hp x y hr)]⟩

/-- A loop whose every turn answers with pixel writes, on any buffer of b's shape, answers with pixel writes. -/
theorem Buffer.wf.foldlM_written {p : Params} {α : Type} {f : Buffer → α → Option Buffer} {b : Buffer} (hb : b.wf p)
    (l : List α) (hf : ∀ c, c.wf p → b.sameShape c → ∀ a ∈ l, ∃ c', f c a = some c' ∧ c.PixelsWritten c') :
    ∃ b', l.foldlM f b = some b' ∧ b.PixelsWritten b' := by
  refine foldlM_option_answers (P := b.PixelsWritten) l (fun c a ha hc => ?_) (.refl hb.sound)
  obtain ⟨hsound, hshape⟩ := hc.continues
  obtain ⟨c', hfc, hc'⟩ := hf c (hb.of_sameShape hshape hsound) hshape a ha
  exact ⟨c', hfc, hc.trans hc'⟩

theorem Buffer.sameShape.inRange {b c : Buffer} (h : b.sameShape c) {x y : Nat} (hr : b.inRange x y) :
    c.inRange x y := ⟨h.2.1 ▸ hr.1, h.2.2.1 ▸ hr.2⟩

/-- FILLRECT's loop over in-range pixels (R147). -/
theorem Buffer.wf.fillPixels_written {p : Params} {b : Buffer} {pixels : List (Nat × Nat)} (hb : b.wf p) (v : Packed)
    (h : ∀ q ∈ pixels, b.inRange q.1 q.2) : ∃ b', b.fillPixels pixels v = some b' ∧ b.PixelsWritten b' :=
  hb.foldlM_written pixels fun _ hc hs q hq => hc.writePixel_written (hs.inRange (h q hq)) v

section
variable {p : Params} {d src : Buffer} {x y : Nat} (hd : d.wf p) (hsrc : src.wf p) (hmode : d.mode = src.mode)
  (hx : x + src.width ≤ d.width) (hy : y + src.height ≤ d.height)
include hd hsrc hx hy

/-- BLIT's pixel loop (R168). -/
theorem Buffer.copyPixels_written : ∃ d', d.copyPixels src x y = some d' ∧ d.PixelsWritten d' := by
  refine hd.foldlM_written _ fun c hc hs q hq => ?_
  have hq' := mem_rowMajor.1 hq
  have hread := Buffer.readPixel_of_le (hsrc.touched_le (x := q.1) (y := q.2) ⟨by omega, by omega⟩)
  have hin : d.inRange (x + q.1) (y + q.2) := ⟨by omega, by omega⟩
  simpa only [Buffer.copyPixel, hread, Option.bind_eq_bind, Option.bind_some] using
    hc.writePixel_written (hs.inRange hin) _

include hmode

/-- One row of BLIT's fast path: the bytes read and written lie inside the storages, and every bit written belongs to a
pixel (R166, R167). -/
theorem Buffer.copyRow_written {r : Nat} (hr : r < src.height) (hx2 : x % 2 = 0) (hn : src.width % 2 = 0) :
    ∃ d', d.copyRow src x y r = some d' ∧ d.PixelsWritten d' := by
  have hpos : 0 < src.width := hsrc.1.1
  have hread : rowSource d.mode src.width r + rowBytes d.mode src.width ≤ src.len := by
    rw [rowSource_eq_addressOf, hsrc.len_eq, hmode]
    exact row_le_storageLength rfl hn (by omega) hpos hr
  have hwrite : rowTarget d.mode d.width x y r + rowBytes d.mode src.width ≤ d.len := by
    rw [rowTarget_eq_addressOf _ hx2, hd.len_eq]
    exact row_le_storageLength hx2 hn hx hpos (by omega)
  obtain ⟨d', hw, hs, hsh, hk⟩ := hd.sound.memWrite_of_le
    (bs := src.bytesFrom (rowSource d.mode src.width r) (rowBytes d.mode src.width)) (by simpa using hwrite)
  refine ⟨d', by simp [Buffer.copyRow, Buffer.memRead_of_le hread, hw], ⟨hs, hsh⟩, fun k j hp => ?_⟩
  by_cases hj : j < 8
  · rw [hk, Buffer.bytesFrom_getElem?]
    split
    · rename_i hle
      rw [if_neg]
      · rfl
      · intro hlt
        rw [rowTarget_eq_addressOf _ hx2] at hle hlt
        obtain ⟨x', hx', hown⟩ := row_ownsBit hx2 hn hx hj hle (by omega)
        exact hp x' (y + r) ⟨hx', by omega⟩ hown
    · rfl
  · rw [BitVec.getLsbD_of_ge _ _ (by omega), BitVec.getLsbD_of_ge _ _ (by omega)]

/-- BLIT's storage operation, on either path (R164 to R168). -/
theorem Buffer.blitFrom_written : ∃ d', d.blitFrom src x y = some d' ∧ d.PixelsWritten d' := by
  unfold Buffer.blitFrom
  split
  · rename_i hfast
    obtain ⟨hx2, hn⟩ := fastPath_even hfast
    refine hd.foldlM_written _ fun c hc ⟨hm, hw, hh, _⟩ r hr => ?_
    exact Buffer.copyRow_written hc hsrc (hm.trans hmode) (hw ▸ hx) (hh ▸ hy) (List.mem_range.1 hr) hx2 hn
  · exact Buffer.copyPixels_written hd hsrc hx hy

end

/-! ## No command forms an index outside the storage (R51) -/

theorem withStored_ne_fault {α : Type} {r : Option α} {k : α → State} {f : Fault} (h : ∃ a, r = some a) :
    withStored r k ≠ .fault f := by
  obtain ⟨a, rfl⟩ := h
  exact nofun

theorem next_ne_fault (f : Fault) (t : State) : (.next t : Result) ≠ .fault f := nofun

/-- Where R146's check passes, every pixel of the rectangle is in range. -/
theorem rectangle_inRange {s : State} {b : Buffer}
    (h : ¬(s.operandX < 0 ∨ s.operandY < 0 ∨ s.operandX + s.operandW > b.width
      ∨ s.operandY + s.operandH > b.height)) :
    ∀ q ∈ rowMajor s.operandX.toNat s.operandY.toNat s.operandW.toNat s.operandH.toNat, b.inRange q.1 q.2 := by
  intro q hq
  have := mem_rowMajor.1 hq
  exact ⟨by omega, by omega⟩

theorem fillPattern_ne_nil (mode : Mode) (v : Packed) : fillPattern mode v ≠ [] := by cases mode <;> exact nofun

/-- From a state that meets the invariant the storage answers every command. -/
theorem State.Inv.exec_ne_fault {s : State} (hs : s.Inv) (i : Instr) (f : Fault) : exec i s ≠ .fault f := by
  have ho := next_ne_fault f
  cases i with
  | config sel mode => exact raise_or_ne ho fun _ => raise_or_ne ho fun _ => ho _
  | addr sel => exact withPixel_ne ho fun b x y _ _ => ho _
  | getpx sel =>
    exact withPixel_ne ho fun b x y hb hr =>
      withStored_ne_fault ⟨_, Buffer.readPixel_of_le ((hs.slot_wf hb).touched_le hr)⟩
  | setpx sel =>
    rw [exec, execSetpx]
    refine withPixel_ne ho fun b x y hb hr => ?_
    obtain ⟨b', hw, -⟩ := (hs.slot_wf hb).writePixel_written hr (s.operandV b.mode)
    exact withStored_ne_fault ⟨b', hw⟩
  | fill sel =>
    refine withBuffer_ne ho fun b hb => withStored_ne_fault ?_
    exact ((hs.slot_wf hb).sound.fillAll_spec (fillPattern_ne_nil _ _)).imp fun _ h => h.1
  | fillrect sel =>
    refine withBuffer_ne ho fun b hb => raise_or_ne ho fun hr => withStored_ne_fault ?_
    exact ((hs.slot_wf hb).fillPixels_written _ (rectangle_inRange hr)).imp fun _ h => h.1
  | invert sel => exact ho _
  | blit sel =>
    refine withBuffer_ne ho fun d hd => withBuffer_ne ho fun src hsrc => raise_or_ne ho fun hm =>
      raise_or_ne ho fun hr => withStored_ne_fault ?_
    exact (Buffer.blitFrom_written (hs.slot_wf hd) (hs.slot_wf hsrc) (not_not.1 hm) (by omega)
      (by omega)).imp fun _ h => h.1
  | rawrd sel =>
    exact withBuffer_ne ho fun b _ => raise_or_ne ho fun hi =>
      withStored_ne_fault ⟨_, Buffer.load_of_lt (by omega)⟩
  | rawwr sel =>
    exact withBuffer_ne ho fun b _ => raise_or_ne ho fun hi =>
      withStored_ne_fault ⟨_, Buffer.store_of_lt _ (by omega)⟩

/-- A host action faults only where the command it runs does. -/
theorem State.Inv.perform_ne_fault {s : State} (hs : s.Inv) (a : HostAction) (f : Fault) :
    perform a s ≠ .fault f := by
  cases a with
  | rd address width =>
    simp only [perform]
    split
    · exact next_ne_fault f _
    · exact nofun
  | wr address width w =>
    simp only [perform]
    split
    · exact hostWrite_ne (next_ne_fault f) fun i => (hs.writeReg .cmd w).exec_ne_fault i f
    · exact nofun
  | platformReset => exact next_ne_fault f _

/-- Settles O5: in-range pixels and the rows of the fast path lie inside the storage (R104), and the raw accesses check
their index. -/
theorem noStepFormsAnIndexOutsideStorage : Obligations.NoStepFormsAnIndexOutsideStorage := by
  unfold Obligations.NoStepFormsAnIndexOutsideStorage
  intro s f hs
  unfold step
  split
  · exact hs.advance.perform_ne_fault _ f
  · exact next_ne_fault f s

/-! ## Padding nibbles (R55) -/

/-- What a storage operation that answers with pixel writes leaves. -/
theorem Buffer.PixelsWritten.of_answer {b b' : Buffer} {r : Option Buffer}
    (h : ∃ c, r = some c ∧ b.PixelsWritten c) (hr : r = some b') : b.PixelsWritten b' := by
  obtain ⟨c, hc, hw⟩ := h
  exact Option.some.inj (hc.symm.trans hr) ▸ hw

/-- A raised code writes no pixel. -/
theorem pixelsWritten_of_raise {s : State} {c : StatusCode} {sel : Slot} {b b' : Buffer} (hs : s.Inv)
    (hb : s.slot sel = some b) (hb' : (s.raise c).slot sel = some b') : b.PixelsWritten b' := by
  rw [State.raise_slot, hb, Option.some.injEq] at hb'
  exact hb' ▸ .refl (hs.slot_wf hb).sound

section
variable {s t : State} {sel : Slot} {b b' : Buffer} (hs : s.Inv) (hb : s.slot sel = some b)
  (hb' : t.slot sel = some b')
include hs hb hb'

theorem execSetpx_pixelsWritten (h : exec (.setpx sel) s = .next t) : b.PixelsWritten b' := by
  obtain rfl | rfl | ⟨c, c', hc, ⟨-, hr⟩, hw, rfl⟩ := execSetpx_next h
  · exact pixelsWritten_of_raise hs hb hb'
  · exact pixelsWritten_of_raise hs hb hb'
  · obtain rfl : c = b := Option.some.inj (hc.symm.trans hb)
    obtain rfl : c' = b' := by simpa using hb'
    exact .of_answer ((hs.slot_wf hb).writePixel_written hr _) hw

theorem execFillrect_pixelsWritten (h : exec (.fillrect sel) s = .next t) : b.PixelsWritten b' := by
  obtain rfl | rfl | ⟨c, c', hc, hr, hw, rfl⟩ := execFillrect_next h
  · exact pixelsWritten_of_raise hs hb hb'
  · exact pixelsWritten_of_raise hs hb hb'
  · obtain rfl : c = b := Option.some.inj (hc.symm.trans hb)
    obtain rfl : c' = b' := by simpa using hb'
    exact .of_answer ((hs.slot_wf hb).fillPixels_written _ (rectangle_inRange hr)) hw

theorem execBlit_pixelsWritten (h : exec (.blit sel) s = .next t) : b.PixelsWritten b' := by
  obtain rfl | rfl | rfl | ⟨d, src, d', hd, hsrc, hm, hr, hw, rfl⟩ := execBlit_next h
  · exact pixelsWritten_of_raise hs hb hb'
  · exact pixelsWritten_of_raise hs hb hb'
  · exact pixelsWritten_of_raise hs hb hb'
  · obtain rfl : d = b := Option.some.inj (hd.symm.trans hb)
    obtain rfl : d' = b' := by simpa using hb'
    exact .of_answer (Buffer.blitFrom_written (hs.slot_wf hb) (hs.slot_wf hsrc) hm (by omega) (by omega)) hw

end

/-- Settles O57: the three commands write whole in-range pixels, and BLIT's fast path bytes that such pixels fill. -/
theorem pixelWritesLeavePaddingAlone : Obligations.PixelWritesLeavePaddingAlone := by
  unfold Obligations.PixelWritesLeavePaddingAlone
  intro s t sel b b' hs hb hb' i hi h
  suffices hw : b.PixelsWritten b' from hw.padding
  simp only [List.mem_cons, List.not_mem_nil, or_false] at hi
  rcases hi with rfl | rfl | rfl
  · exact execSetpx_pixelsWritten hs hb hb' h
  · exact execFillrect_pixelsWritten hs hb hb' h
  · exact execBlit_pixelsWritten hs hb hb' h

end Sys2Proof.Machine

/-! PROOFS. The encoding: which fields name a command, that a word is its fields, how the operand registers are read as
numbers, and what the expansion of a pseudo-instruction runs. -/

namespace Sys2Proof.Machine

/-! ## The fields that name a command (R71 to R75) -/

/-- The fields are those of command i: its opcode, slot and mode, and reserved bits 0 (R71, R73). -/
def fieldsName (f : CommandFields) (i : Instr) : Prop :=
  f.opc.toNat = opcodeOf i ∧ f.sel.toNat = slotNumber (selOf i) ∧ f.mode.toNat = modeBitOf i ∧ f.rsv.toNat = 0

/-- Fields that name the same command are equal. -/
theorem fieldsName.unique {f g : CommandFields} {i : Instr} (hf : fieldsName f i) (hg : fieldsName g i) : f = g := by
  obtain ⟨fo, fs, fm, fr⟩ := hf
  obtain ⟨go, gs, gm, gr⟩ := hg
  cases f
  cases g
  simp only [CommandFields.mk.injEq]
  exact ⟨BitVec.eq_of_toNat_eq (fo.trans go.symm), BitVec.eq_of_toNat_eq (fs.trans gs.symm),
    BitVec.eq_of_toNat_eq (fm.trans gm.symm), BitVec.eq_of_toNat_eq (fr.trans gr.symm)⟩

theorem opcodeOf_range (i : Instr) : 1 ≤ opcodeOf i ∧ opcodeOf i ≤ 10 := by cases i <;> simp [opcodeOf]

theorem modeBitOf_config (sel : Slot) (mode : Mode) : modeBitOf (.config sel mode) = modeNumber mode := by
  cases mode <;> rfl

/-- MODE is an operand of CONFIG only (R75). -/
theorem modeBitOf_eq_zero {i : Instr} (h : opcodeOf i ≠ 1) : modeBitOf i = 0 := by
  cases i with
  | config => exact absurd rfl h
  | _ => rfl

theorem modeNumber_injective : Function.Injective modeNumber := by
  refine Function.LeftInverse.injective (g := fun n => if n = 0 then .gray4 else .rgb444) fun mode => ?_
  cases mode <;> rfl

theorem modeNumber_modeOfBit (b : BitVec 1) : modeNumber (modeOfBit b) = b.toNat := by
  revert b
  decide

theorem slotOfBit_eq_iff (b : BitVec 1) (sel : Slot) : slotOfBit b = sel ↔ b.toNat = slotNumber sel := by
  revert b
  cases sel <;> decide

/-- The command an opcode names is the one with that opcode and slot, and, for CONFIG, that mode (R72). -/
theorem instrOfOpcode_eq_some {n : Nat} {sel : Slot} {mode : Mode} {i : Instr} :
    instrOfOpcode n sel mode = some i ↔
      n = opcodeOf i ∧ sel = selOf i ∧ (n = 1 → modeNumber mode = modeBitOf i) := by
  constructor
  · intro h
    unfold instrOfOpcode at h
    split at h <;> cases h
    case h_1 => exact ⟨rfl, rfl, fun _ => (modeBitOf_config sel mode).symm⟩
    all_goals exact ⟨rfl, rfl, nofun⟩
  · rintro ⟨rfl, rfl, hm⟩
    cases i with
    | config sel m =>
      obtain rfl : mode = m := modeNumber_injective ((hm rfl).trans (modeBitOf_config sel m))
      rfl
    | _ => rfl

/-- Each opcode of the table names a command (R72). -/
theorem instrOfOpcode_assigned {n : Nat} (h : 1 ≤ n ∧ n ≤ 10) (sel : Slot) (mode : Mode) :
    ∃ i, instrOfOpcode n sel mode = some i := by
  obtain ⟨hlo, hhi⟩ := h
  interval_cases n <;> exact ⟨_, rfl⟩

/-- The fields name the command of their opcode when the reserved bits are 0 and MODE is 0 or an operand (R73). -/
theorem fieldsName_iff_instrOfOpcode {f : CommandFields} {i : Instr} :
    fieldsName f i ↔ instrOfOpcode f.opc.toNat (slotOfBit f.sel) (modeOfBit f.mode) = some i ∧ f.rsv.toNat = 0 ∧
      (f.mode.toNat = 0 ∨ f.opc.toNat = 1) := by
  rw [instrOfOpcode_eq_some, slotOfBit_eq_iff, modeNumber_modeOfBit]
  constructor
  · rintro ⟨ho, hs, hm, hr⟩
    refine ⟨⟨ho, hs, fun _ => hm⟩, hr, ?_⟩
    by_cases h1 : f.opc.toNat = 1
    · exact .inr h1
    · exact .inl (hm.trans (modeBitOf_eq_zero (ho ▸ h1)))
  · rintro ⟨⟨ho, hs, hcfg⟩, hr, hm⟩
    refine ⟨ho, hs, ?_, hr⟩
    by_cases h1 : f.opc.toNat = 1
    · exact hcfg h1
    · exact (hm.resolve_right h1).trans (modeBitOf_eq_zero (ho ▸ h1)).symm

/-- The decode procedure answers the command its fields name, and no other (R73). -/
theorem decodeFields_eq_ok {f : CommandFields} {i : Instr} : decodeFields f = .ok i ↔ fieldsName f i := by
  have hrsv : f.rsv.toNat = 0 ↔ ¬f.rsv ≠ 0 := (BitVec.toNat_inj (y := 0)).trans not_not.symm
  have hmode : (f.mode.toNat = 0 ∨ f.opc.toNat = 1) ↔ ¬(f.mode = 1 ∧ f.opc ≠ 1) := by
    rw [not_and_or, not_not, ← BitVec.toNat_inj, ← BitVec.toNat_inj]
    have := f.mode.isLt
    show _ ↔ ¬f.mode.toNat = 1 ∨ f.opc.toNat = 1
    omega
  rw [fieldsName_iff_instrOfOpcode, hrsv, hmode]
  unfold decodeFields
  split
  next hnone => simp [hnone]
  next j hsome =>
    rw [hsome]
    split_ifs with hr hm
    · exact ⟨nofun, fun h => absurd hr h.2.1⟩
    · exact ⟨nofun, fun h => absurd hm h.2.2⟩
    · simp only [Except.ok.injEq, Option.some.injEq, hr, hm, not_false_eq_true, and_true]

/-- The three clauses of R73 as numbers. -/
theorem wellFormed_iff {f : CommandFields} :
    f.wellFormed = true ↔ (1 ≤ f.opc.toNat ∧ f.opc.toNat ≤ 10) ∧ f.rsv.toNat = 0 ∧
      (f.mode.toNat = 0 ∨ f.opc.toNat = 1) := by
  simp [CommandFields.wellFormed, CommandFields.opcodeAssigned, CommandFields.reservedClear,
    CommandFields.modeOnlyOnConfig, ← BitVec.toNat_inj, and_assoc]

/-- Well-formed fields are those that name a command (R73). -/
theorem wellFormed_iff_fieldsName {f : CommandFields} : f.wellFormed = true ↔ ∃ i, fieldsName f i := by
  rw [wellFormed_iff]
  constructor
  · rintro ⟨ho, hr, hm⟩
    obtain ⟨i, hi⟩ := instrOfOpcode_assigned ho (slotOfBit f.sel) (modeOfBit f.mode)
    exact ⟨i, fieldsName_iff_instrOfOpcode.2 ⟨hi, hr, hm⟩⟩
  · rintro ⟨i, hi⟩
    obtain ⟨-, hr, hm⟩ := fieldsName_iff_instrOfOpcode.1 hi
    obtain ⟨ho, -⟩ := hi
    exact ⟨ho ▸ opcodeOf_range i, hr, hm⟩

/-! ## A word is its fields -/

@[simp] theorem fieldsOf_opc_toNat (w : Word) : (fieldsOf w).opc.toNat = w.toNat % 256 := by
  simp [fieldsOf, BitVec.extractLsb'_toNat]

@[simp] theorem fieldsOf_sel_toNat (w : Word) : (fieldsOf w).sel.toNat = w.toNat / 256 % 2 := by
  simp [fieldsOf, BitVec.extractLsb'_toNat, Nat.shiftRight_eq_div_pow]

@[simp] theorem fieldsOf_mode_toNat (w : Word) : (fieldsOf w).mode.toNat = w.toNat / 512 % 2 := by
  simp [fieldsOf, BitVec.extractLsb'_toNat, Nat.shiftRight_eq_div_pow]

@[simp] theorem fieldsOf_rsv_toNat (w : Word) : (fieldsOf w).rsv.toNat = w.toNat / 1024 := by
  rw [fieldsOf, BitVec.extractLsb'_toNat, Nat.shiftRight_eq_div_pow]
  omega

/-- The fields cover every bit of a word (R71). -/
theorem fieldsOf_injective : Function.Injective fieldsOf := by
  intro w v h
  have hopc := congrArg (fun f => f.opc.toNat) h
  have hsel := congrArg (fun f => f.sel.toNat) h
  have hmode := congrArg (fun f => f.mode.toNat) h
  have hrsv := congrArg (fun f => f.rsv.toNat) h
  simp only [fieldsOf_opc_toNat, fieldsOf_sel_toNat, fieldsOf_mode_toNat, fieldsOf_rsv_toNat] at hopc hsel hmode hrsv
  exact BitVec.eq_of_toNat_eq (by omega)

/-- The fields of a command's word name that command (R71). -/
theorem encode_fieldsName (i : Instr) : fieldsName (fieldsOf (encode i)) i := by
  have law : Laws.Encoding.Statement i := by
    cases i with
    | config sel mode => exact Laws.Encoding.config sel mode
    | addr sel => exact Laws.Encoding.addr sel
    | getpx sel => exact Laws.Encoding.getpx sel
    | setpx sel => exact Laws.Encoding.setpx sel
    | fill sel => exact Laws.Encoding.fill sel
    | fillrect sel => exact Laws.Encoding.fillrect sel
    | invert sel => exact Laws.Encoding.invert sel
    | blit sel => exact Laws.Encoding.blit sel
    | rawrd sel => exact Laws.Encoding.rawrd sel
    | rawwr sel => exact Laws.Encoding.rawwr sel
  obtain ⟨hwf, ho, hs, hm⟩ := law
  obtain ⟨-, hr, -⟩ := wellFormed_iff.1 hwf
  exact ⟨ho, hs, hm, hr⟩

/-! ## Words and commands (R73, R77, R79) -/

theorem decode_eq_ok {w : Word} {i : Instr} : decode w = .ok i ↔ fieldsName (fieldsOf w) i := decodeFields_eq_ok

theorem decode_encode (i : Instr) : decode (encode i) = .ok i := decode_eq_ok.2 (encode_fieldsName i)

/-- Settles O10: the fields that name a command are unique, and a word is its fields. -/
theorem aWordDecodesToACommandIffItIsItsEncoding : Obligations.AWordDecodesToACommandIffItIsItsEncoding := by
  unfold Obligations.AWordDecodesToACommandIffItIsItsEncoding
  intro w i
  constructor
  · exact fun h => fieldsOf_injective ((decode_eq_ok.1 h).unique (encode_fieldsName i))
  · rintro rfl
    exact decode_encode i

/-- The words that are commands, as numbers (R73). -/
theorem exists_decode_iff {w : Word} :
    (∃ i, decode w = .ok i) ↔ (1 ≤ w.toNat % 256 ∧ w.toNat % 256 ≤ 10) ∧ w.toNat / 1024 = 0 ∧
      (w.toNat / 512 % 2 = 0 ∨ w.toNat % 256 = 1) := by
  simp only [decode_eq_ok, ← wellFormed_iff_fieldsName, wellFormed_iff, fieldsOf_opc_toNat, fieldsOf_mode_toNat,
    fieldsOf_rsv_toNat]

/-- Settles O9: a legal word's command has the word's fields, and a word that is no command raises ILLEGAL. -/
theorem legalWordsDecodeAndOthersRaiseIllegal : Obligations.LegalWordsDecodeAndOthersRaiseIllegal := by
  unfold Obligations.LegalWordsDecodeAndOthersRaiseIllegal
  intro w s
  split_ifs with h
  · obtain ⟨i, hi⟩ := exists_decode_iff.2 h
    obtain ⟨ho, hs, hm, -⟩ := decode_eq_ok.1 hi
    exact ⟨i, hi, runCommand_of_decode hi s, by simpa using ho.symm, by simpa using hs.symm, by simpa using hm.symm⟩
  · exact runCommand_of_illegal (not_exists.1 (mt exists_decode_iff.1 h)) s

/-- Settles O11: each word of the table is the word of its command. -/
theorem theExampleWordsDecode : Obligations.TheExampleWordsDecode := by
  unfold Obligations.TheExampleWordsDecode
  intro p hp
  have hw : encode p.2 = p.1 := by
    revert p
    decide
  exact ⟨hw ▸ decode_encode p.2, hw⟩

/-! ## The operand registers as numbers (R76) -/

/-- A word read as a two's-complement integer. -/
theorem word_toInt (w : Word) : w.toInt = if w.toNat < 2 ^ 31 then (w.toNat : Int) else w.toNat - 2 ^ 32 := by
  rw [BitVec.toInt_eq_toNat_cond]
  split_ifs <;> omega

/-- Settles O19, register by register. -/
theorem operandsAreReadAsTheRuleSays : Obligations.OperandsAreReadAsTheRuleSays := by
  unfold Obligations.OperandsAreReadAsTheRuleSays
  intro s
  refine ⟨word_toInt s.opx, word_toInt s.opy, word_toInt s.opw, word_toInt s.oph, ?_, ?_, rfl, ?_⟩
  · rw [State.operandV, BitVec.toNat_setWidth, BitVec.extractLsb'_toNat, Nat.shiftRight_zero]
    omega
  · simp [State.operandV, BitVec.extractLsb'_toNat]
  · simp [State.operandB, BitVec.extractLsb'_toNat]

/-! ## Running a pseudo-instruction (R80) -/

theorem run_one (M : Host.Core) (s : M.State) : M.run 1 s = M.step s := by
  rw [Host.Core.run]
  cases M.step s <;> rfl

theorem run_succ_of_next {M : Host.Core} {s t : M.State} (h : M.step s = .next t) (n : Nat) :
    M.run (n + 1) s = M.run n t := by
  rw [Host.Core.run, h]

/-- The first of the actions that remain is the current one. -/
theorem currentAction_of_drop {s : State} {a : HostAction} {l : List HostAction} (h : s.program.drop s.index = a :: l) :
    s.currentAction = some a := by
  rw [State.currentAction, ← Nat.add_zero s.index, ← List.getElem?_drop, h]
  rfl

/-- The other actions remain for the state past it. -/
theorem advance_drop {s : State} {a : HostAction} {l : List HostAction} (h : s.program.drop s.index = a :: l) :
    s.advance.program.drop s.advance.index = l := by
  rw [State.advance_program, State.advance_index, ← List.tail_drop, h, List.tail_cons]

/-- The state after the host has written the words to the registers, one action each. -/
def State.afterWrites (s : State) : List (RegName × Word) → State
  | [] => s
  | o :: os => (s.advance.writeReg o.1 o.2).afterWrites os

/-- Writes to registers other than CMD and then the word of a command: the run ends as the command does at the state
with the words written. -/
theorem run_writes_execAction {os : List (RegName × Word)} (hos : ∀ o ∈ os, o.1 ≠ .cmd) (i : Instr)
    (rest : List HostAction) {s : State}
    (h : s.program.drop s.index = os.map (fun o => writeAction s.params o.1 o.2) ++ execAction s.params i :: rest) :
    Sys2Proof.core.run (os.length + 1) s = exec i ((s.afterWrites os).advance.writeReg .cmd (encode i)) := by
  induction os generalizing s with
  | nil =>
    have hact : s.currentAction = some (execAction s.params i) := currentAction_of_drop h
    exact ((run_one Sys2Proof.core s).trans (step_write_cmd hact)).trans (runCommand_of_decode (decode_encode i) _)
  | cons o os ih =>
    have hact : s.currentAction = some (writeAction s.params o.1 o.2) := currentAction_of_drop h
    have hstep := step_write_register (hos o List.mem_cons_self) hact
    have hrest := ih (fun o' ho' => hos o' (List.mem_cons_of_mem o ho')) (s := s.advance.writeReg o.1 o.2)
      (by simpa using advance_drop h)
    exact (run_succ_of_next (M := Sys2Proof.core) hstep _).trans hrest

theorem pseudoOperands_ne_cmd (q : Pseudo) : ∀ o ∈ pseudoOperands q, o.1 ≠ .cmd := by
  cases q <;> simp [pseudoOperands]

/-- The expansion of a pseudo-instruction runs its command at the state with its operands written (R80). -/
theorem run_expandPseudo {s : State} {q : Pseudo} {rest : List HostAction}
    (h : s.program.drop s.index = expandPseudo s.params q ++ rest) :
    Sys2Proof.core.run ((pseudoOperands q).length + 1) s = exec (pseudoCommand q)
      ((s.afterWrites (pseudoOperands q)).advance.writeReg .cmd (encode (pseudoCommand q))) :=
  run_writes_execAction (pseudoOperands_ne_cmd q) _ rest (by rw [h, expandPseudo, List.append_assoc]; rfl)

/-- Settles O59: the table of expansions row by row, and each row run as `run_expandPseudo` says. -/
theorem pseudoInstructionsLoadOperandsAndRunTheirCommand :
    Obligations.PseudoInstructionsLoadOperandsAndRunTheirCommand := by
  unfold Obligations.PseudoInstructionsLoadOperandsAndRunTheirCommand
  constructor
  · intro p q
    cases q <;> rfl
  · intro s q rest h
    have hrun := run_expandPseudo h
    cases q
    all_goals
      simp only [pseudoOperands, pseudoCommand, State.afterWrites, State.writeReg, State.advance] at hrun
      exact hrun

end Sys2Proof.Machine

/-! PROOFS. The pixel units (40_pixel_units.md): which storage nibbles a pixel owns, that a read sees the bits its pixel
owns and no other, and the read-back and neighbour laws of the composite read and write. -/

namespace Sys2Proof.Machine

/-- Settles O22: the last byte an in-range pixel touches is below the storage length. -/
theorem inRangePixelsTouchOnlyStorageBytes : Obligations.InRangePixelsTouchOnlyStorageBytes := by
  unfold Obligations.InRangePixelsTouchOnlyStorageBytes
  intro mode w h x y hx hy
  exact Nat.sub_le_sub_right (addressOf_touched_le mode hx hy) 1

/-! ## The storage as a row of nibbles (R54, R106) -/

/-- The nibbles of a packed pixel value: its bits in fours. -/
def nibblesPerPixel : Mode → Nat
  | .gray4 => 1
  | .rgb444 => 3

theorem bitsPerPixel_eq_nibbles (mode : Mode) : bitsPerPixel mode = 4 * nibblesPerPixel mode := by cases mode <;> rfl

/-- The nibble that holds bit j of storage byte k, counted through the storage with the high nibble of a byte first. -/
def nibbleOf (k j : Nat) : Nat := 2 * k + (7 - j) / 4

/-- The first of the nibbles of pixel (x, y): its byte's high nibble at phase 0 and its low nibble at phase 1. -/
def firstNibble (mode : Mode) (w x y : Nat) : Nat := 2 * addressOf mode w x y + phaseNumber (phaseOf x)

theorem phaseNumber_phaseOf (x : Nat) : phaseNumber (phaseOf x) = x % 2 := by
  rcases Nat.mod_two_eq_zero_or_one x with h | h
  · rw [phaseOf_of_even h, h, phaseNumber]
  · rw [phaseOf_of_odd h, h, phaseNumber]

/-- The masks of R106 by nibble: the pixel's nibbles from its phase on, over the two bytes. -/
theorem pixelMasks_getLsbD (mode : Mode) (ph : Phase) {j : Nat} (hj : j < 8) :
    ((pixelMasks mode ph).1.getLsbD j = true ↔
      phaseNumber ph ≤ (7 - j) / 4 ∧ (7 - j) / 4 < phaseNumber ph + nibblesPerPixel mode) ∧
    ((pixelMasks mode ph).2.getLsbD j = true ↔ 2 + (7 - j) / 4 < phaseNumber ph + nibblesPerPixel mode) := by
  cases mode <;> cases ph <;> revert j <;> decide

/-- A pixel owns the bits of its nibbles, at every width. -/
theorem ownsBit_iff_nibble {mode : Mode} {w x y k j : Nat} (hj : j < 8) :
    ownsBit mode w x y k j ↔
      firstNibble mode w x y ≤ nibbleOf k j ∧ nibbleOf k j < firstNibble mode w x y + nibblesPerPixel mode := by
  obtain ⟨hfst, hsnd⟩ := pixelMasks_getLsbD mode (phaseOf x) hj
  have hspan : phaseNumber (phaseOf x) < 2 ∧ phaseNumber (phaseOf x) + nibblesPerPixel mode ≤ 4 := by
    cases mode <;> cases phaseOf x <;> decide
  unfold ownsBit maskAt firstNibble nibbleOf
  split_ifs with h0 h1
  · rw [hfst]; omega
  · rw [hsnd]; omega
  · simp only [BitVec.ofNat_eq_ofNat, BitVec.getLsbD_zero, Bool.false_eq_true, false_iff]
    omega

theorem lt_eight_of_ownsBit {mode : Mode} {w x y k j : Nat} (h : ownsBit mode w x y k j) : j < 8 :=
  BitVec.lt_of_getLsbD h

/-! ## Who owns a storage bit (R105) -/

/-- With an even width the pixels follow each other through the nibbles without a gap, in row-major order. -/
theorem firstNibble_of_even_width {w : Nat} (mode : Mode) (hw : w % 2 = 0) (x y : Nat) :
    firstNibble mode w x y = nibblesPerPixel mode * (x + y * w) := by
  have hrow : y * w % 2 = 0 := by rw [Nat.mul_mod, hw]; rfl
  rw [firstNibble, phaseNumber_phaseOf]
  cases mode with
  | gray4 => simp only [addressOf_gray4, nibblesPerPixel]; omega
  | rgb444 =>
    rcases Nat.mod_two_eq_zero_or_one x with hx | hx
    · simp only [addressOf_rgb444_even hx, nibblesPerPixel]; omega
    · simp only [addressOf_rgb444_odd hx, nibblesPerPixel]; omega

/-- With an even width a pixel owns a bit when it is the pixel at that bit's nibble in row-major order. -/
theorem ownsBit_iff_of_even_width {mode : Mode} {w x y k j : Nat} (hw : w % 2 = 0) (hj : j < 8) :
    ownsBit mode w x y k j ↔ nibbleOf k j / nibblesPerPixel mode = x + y * w := by
  rw [ownsBit_iff_nibble hj, firstNibble_of_even_width mode hw, Nat.div_eq_iff (by cases mode <;> decide)]
  cases mode <;> simp only [nibblesPerPixel] <;> omega

/-- The place in row-major order names the pixel. -/
theorem rowMajor_place_unique {w x y x' y' : Nat} (hx : x < w) (hx' : x' < w) (h : x + y * w = x' + y' * w) :
    x = x' ∧ y = y' := by
  have hm := congrArg (· % w) h
  have hd := congrArg (· / w) h
  simp only [Nat.add_mul_mod_self_right, Nat.mod_eq_of_lt hx, Nat.mod_eq_of_lt hx'] at hm
  simp only [Nat.add_mul_div_right _ _ (Nat.zero_lt_of_lt hx), Nat.div_eq_of_lt hx, Nat.div_eq_of_lt hx', Nat.zero_add]
    at hd
  exact ⟨hm, hd⟩

/-- With an even width no two pixels of the columns own one bit. -/
theorem ownsBit_unique {mode : Mode} {w x y x' y' k j : Nat} (hw : w % 2 = 0) (hx : x < w) (hx' : x' < w)
    (h : ownsBit mode w x y k j) (h' : ownsBit mode w x' y' k j) : (x, y) = (x', y') := by
  have hj := lt_eight_of_ownsBit h
  rw [ownsBit_iff_of_even_width hw hj] at h h'
  exact Prod.ext_iff.2 (rowMajor_place_unique hx hx' (h.symm.trans h'))

/-- With an even width every storage bit lies in the nibbles of the W * H pixels. -/
theorem nibbleOf_div_lt {mode : Mode} {w h k j : Nat} (hw : w % 2 = 0) (hk : k < storageLength mode w h) :
    nibbleOf k j / nibblesPerPixel mode < h * w := by
  have harea : w * h % 2 = 0 := by rw [Nat.mul_mod, hw, Nat.zero_mul, Nat.zero_mod]
  rw [Nat.mul_comm h, Nat.div_lt_iff_lt_mul (by cases mode <;> decide)]
  unfold nibbleOf
  unfold storageLength at hk
  cases mode <;> simp only [nibblesPerPixel, bitsPerPixel] at hk ⊢ <;> omega

/-- With an even width the bit of a storage byte has an in-range owner. -/
theorem exists_ownsBit {mode : Mode} {w h k j : Nat} (hw : w % 2 = 0) (hpos : 1 ≤ w) (hk : k < storageLength mode w h)
    (hj : j < 8) : ∃ x y, (x < w ∧ y < h) ∧ ownsBit mode w x y k j := by
  refine ⟨nibbleOf k j / nibblesPerPixel mode % w, nibbleOf k j / nibblesPerPixel mode / w,
    ⟨Nat.mod_lt _ hpos, (Nat.div_lt_iff_lt_mul hpos).2 (nibbleOf_div_lt hw hk)⟩, ?_⟩
  rw [ownsBit_iff_of_even_width hw hj, Nat.mod_add_div']

/-- With an odd width the last pixel of row 0 and the first of row 1 share a nibble: W pixels
end inside a byte. -/
theorem odd_width_shares_bit {mode : Mode} {w : Nat} (hw : w % 2 = 1) :
    ∃ k, ownsBit mode w (w - 1) 0 k 7 ∧ ownsBit mode w 0 1 k 7 := by
  refine ⟨nibblesPerPixel mode * w / 2, ?_⟩
  have hlast : (w - 1) % 2 = 0 := by omega
  simp only [ownsBit_iff_nibble (show 7 < 8 by decide), firstNibble, phaseNumber_phaseOf, nibbleOf]
  cases mode with
  | gray4 => simp only [addressOf_gray4, nibblesPerPixel]; omega
  | rgb444 =>
    simp only [addressOf_rgb444_even hlast, addressOf_rgb444_even (Nat.zero_mod 2), nibblesPerPixel]
    omega

/-- Settles O23: with an even width the owner is the pixel at the bit's nibble in row-major order; with an odd width rows
0 and 1 meet in a nibble. -/
theorem evenWidthsShareNoNibbleAndOddWidthsDo : Obligations.EvenWidthsShareNoNibbleAndOddWidthsDo := by
  unfold Obligations.EvenWidthsShareNoNibbleAndOddWidthsDo
  intro mode w h hpos _
  constructor
  · intro hw k j hk hj
    obtain ⟨x, y, hr, hown⟩ := exists_ownsBit hw hpos hk hj
    exact ⟨(x, y), ⟨hr, hown⟩, fun q ⟨hq, hqown⟩ => ownsBit_unique hw hq.1 hr.1 hqown hown⟩
  · intro hw hh
    obtain ⟨k, hlast, hfirst⟩ := odd_width_shares_bit (mode := mode) hw
    exact ⟨w - 1, 0, 0, 1, k, 7, ⟨by omega, by omega⟩, ⟨by omega, by omega⟩, by simp, hlast, hfirst⟩

/-! ## The lanes and the read multiplexer undo each other (R106 to R109)

Each row of the tables of R106 to R108 moves single bits, so the laws are checked row by row and bit by bit. -/

/-- Reading the lanes of a value of the mode's width gives the value. -/
theorem readMux_alignLanes {mode : Mode} {v : Packed} (ph : Phase) (hv : valueFits mode v) :
    readMux mode ph (alignLanes mode ph v).1 (alignLanes mode ph v).2 = v := by
  cases mode with
  | gray4 =>
    obtain ⟨u, rfl⟩ : ∃ u : BitVec 4, v = u.setWidth 12 := by
      refine ⟨v.setWidth 4, BitVec.eq_of_toNat_eq ?_⟩
      have := hv rfl
      simp only [BitVec.toNat_setWidth]
      omega
    cases ph <;> (clear hv; revert u; decide)
  | rgb444 => cases ph <;> (ext j hj; interval_cases j <;> simp [readMux, alignLanes])

/-- The lanes of a value read are the pixel's bits of the two bytes. -/
theorem alignLanes_readMux (mode : Mode) (ph : Phase) (b0 b1 : Byte) :
    alignLanes mode ph (readMux mode ph b0 b1) = (b0 &&& (pixelMasks mode ph).1, b1 &&& (pixelMasks mode ph).2) := by
  cases mode <;> cases ph <;>
    ext j hj <;> interval_cases j <;> simp [readMux, alignLanes, pixelMasks]

/-- The read multiplexer sees the pixel's bits only. -/
theorem readMux_and_masks (mode : Mode) (ph : Phase) (b0 b1 : Byte) :
    readMux mode ph (b0 &&& (pixelMasks mode ph).1) (b1 &&& (pixelMasks mode ph).2) = readMux mode ph b0 b1 := by
  cases mode <;> cases ph <;> (ext j hj; interval_cases j <;> simp [readMux, pixelMasks])

/-- A value read has the mode's width. -/
theorem readMux_fits (mode : Mode) (ph : Phase) (b0 b1 : Byte) : valueFits mode (readMux mode ph b0 b1) := by
  rintro rfl
  have h0 := b0.isLt
  cases ph with
  | even => simp only [readMux, BitVec.toNat_setWidth, BitVec.toNat_ushiftRight, Nat.shiftRight_eq_div_pow]; omega
  | odd =>
    have hand : (b0 &&& 0x0F#8).toNat ≤ 15 := Nat.and_le_right
    simp only [readMux, BitVec.toNat_setWidth]
    omega

/-- Two values read are equal exactly when the bytes agree on the pixel's bits. -/
theorem readMux_eq_iff {mode : Mode} {ph : Phase} {b0 b1 c0 c1 : Byte} :
    readMux mode ph b0 b1 = readMux mode ph c0 c1 ↔
      b0 &&& (pixelMasks mode ph).1 = c0 &&& (pixelMasks mode ph).1 ∧
      b1 &&& (pixelMasks mode ph).2 = c1 &&& (pixelMasks mode ph).2 := by
  constructor
  · intro h
    have := congrArg (alignLanes mode ph) h
    rwa [alignLanes_readMux, alignLanes_readMux, Prod.mk.injEq] at this
  · rintro ⟨h0, h1⟩
    rw [← readMux_and_masks mode ph b0, h0, h1, readMux_and_masks]

/-! ## A read sees the bits its pixel owns (R108, R112) -/

/-- Two bytes agree under a mask exactly when they agree on each of its bits. -/
theorem and_eq_and_iff {b c m : Byte} :
    b &&& m = c &&& m ↔ ∀ j, m.getLsbD j = true → b.getLsbD j = c.getLsbD j := by
  constructor
  · intro h j hm
    have := congrArg (BitVec.getLsbD · j) h
    simpa only [BitVec.getLsbD_and, hm, Bool.and_true] using this
  · intro h
    refine BitVec.eq_of_getLsbD_eq fun j _ => ?_
    cases hm : m.getLsbD j with
    | false => simp only [BitVec.getLsbD_and, hm, Bool.and_false]
    | true => simp only [BitVec.getLsbD_and, h j hm]

/-- Two storages agree on the bits a pixel owns exactly when bytes idx0 and idx0 + 1 agree under its masks. -/
theorem forall_ownsBit_iff {mode : Mode} {w x y : Nat} {f g : Nat → Byte} :
    (∀ k j, ownsBit mode w x y k j → (f k).getLsbD j = (g k).getLsbD j) ↔
      f (addressOf mode w x y) &&& (pixelMasks mode (phaseOf x)).1
        = g (addressOf mode w x y) &&& (pixelMasks mode (phaseOf x)).1 ∧
      f (addressOf mode w x y + 1) &&& (pixelMasks mode (phaseOf x)).2
        = g (addressOf mode w x y + 1) &&& (pixelMasks mode (phaseOf x)).2 := by
  simp only [ownsBit, ← and_eq_and_iff]
  constructor
  · intro h
    have h0 := h (addressOf mode w x y)
    have h1 := h (addressOf mode w x y + 1)
    rw [maskAt_addressOf] at h0
    rw [maskAt_addressOf_succ] at h1
    exact ⟨h0, h1⟩
  · rintro ⟨h0, h1⟩ k
    by_cases hk0 : k = addressOf mode w x y
    · rw [hk0, maskAt_addressOf, h0]
    · by_cases hk1 : k = addressOf mode w x y + 1
      · rw [hk1, maskAt_addressOf_succ, h1]
      · rw [maskAt_of_ne hk0 hk1, BitVec.and_zero, BitVec.and_zero]

/-- An in-range pixel reads alike in two buffers of one shape exactly when they agree on every bit it owns. -/
theorem Buffer.wf.readPixel_eq_iff {p : Params} {b c : Buffer} {x y : Nat} (hb : b.wf p) (hs : b.sameShape c)
    (hr : b.inRange x y) :
    c.readPixel x y = b.readPixel x y ↔
      ∀ k j, ownsBit b.mode b.width x y k j → (c.byte k).getLsbD j = (b.byte k).getLsbD j := by
  obtain ⟨hm, hw, -, hl⟩ := hs
  have hle := hb.touched_le hr
  rw [Buffer.readPixel_of_le hle, Buffer.readPixel_of_le (by rwa [hm, hw, hl]), Option.some.injEq, hm, hw,
    readMux_eq_iff, forall_ownsBit_iff]

/-! ## Reading back a written pixel (R114) -/

/-- A write puts the lane, and nothing else, into the mask's bits. -/
theorem writeBack_and_mask {old pm d : Byte} (h : ∀ j, d.getLsbD j = true → pm.getLsbD j = true) :
    writeBack old pm d &&& pm = d := by
  refine BitVec.eq_of_getLsbD_eq fun j hj => ?_
  have hd := h j
  simp only [writeBack, BitVec.getLsbD_and, BitVec.getLsbD_or, BitVec.getLsbD_not, hj, decide_true, Bool.true_and]
  cases hm : pm.getLsbD j with
  | false => rw [hm] at hd; simp [Bool.eq_false_iff.2 fun h => Bool.false_ne_true (hd h)]
  | true => simp

/-- Reading a written pixel gives the value, whatever the bytes held. -/
theorem readMux_writeBack {mode : Mode} {ph : Phase} {v : Packed} (hv : valueFits mode v) (o0 o1 : Byte) :
    readMux mode ph (writeBack o0 (pixelMasks mode ph).1 (alignLanes mode ph v).1)
      (writeBack o1 (pixelMasks mode ph).2 (alignLanes mode ph v).2) = v := by
  have hsub := alignLanes_subset_masks mode ph v
  rw [← readMux_and_masks, writeBack_and_mask fun j => (hsub j).1, writeBack_and_mask fun j => (hsub j).2,
    readMux_alignLanes ph hv]

/-- Settles O24: WB puts the lanes of v where RM reads them. -/
theorem aWrittenPixelReadsBackItsValue : Obligations.AWrittenPixelReadsBackItsValue := by
  unfold Obligations.AWrittenPixelReadsBackItsValue
  intro p b x y v hb hr hv
  have hle := hb.touched_le hr
  obtain ⟨b', hw, -, ⟨hm, hwd, -, hl⟩, hk⟩ := hb.sound.writePixel_of_le v hle
  refine ⟨b', hw, ?_⟩
  rw [Buffer.readPixel_of_le (by rwa [hm, hwd, hl]), hm, hwd, hk, hk, maskAt_addressOf, maskAt_addressOf_succ,
    laneAt_addressOf, laneAt_addressOf_succ, readMux_writeBack hv]

/-! ## What a write leaves of the other pixels (R115) -/

/-- With an even width a write keeps what every other in-range pixel reads: it changes only bits its own pixel owns. -/
theorem Buffer.wf.writePixel_keeps_other {p : Params} {b b' : Buffer} {x y x' y' : Nat} {v : Packed} (hb : b.wf p)
    (heven : b.width % 2 = 0) (hr : b.inRange x y) (hr' : b.inRange x' y') (hne : (x', y') ≠ (x, y))
    (hw : b.writePixel x y v = some b') : b'.readPixel x' y' = b.readPixel x' y' := by
  obtain ⟨c, hc, -, hs, hk⟩ := hb.sound.writePixel_of_le v (hb.touched_le hr)
  obtain rfl : c = b' := Option.some.inj (hc.symm.trans hw)
  rw [hb.readPixel_eq_iff hs hr']
  intro k j hown
  rw [hk, writeBack_getLsbD_of_not_owns]
  exact fun h => hne (ownsBit_unique heven hr'.1 hr.1 hown h)

/-- The value that has every bit of pixel (x, y) the other way round. -/
def Buffer.complementAt (b : Buffer) (x y : Nat) : Packed :=
  readMux b.mode (phaseOf x) (~~~b.byte (addressOf b.mode b.width x y)) (~~~b.byte (addressOf b.mode b.width x y + 1))

theorem Buffer.complementAt_lane (b : Buffer) (x y k : Nat) :
    laneAt b.mode b.width x y k (b.complementAt x y) = ~~~b.byte k &&& maskAt b.mode b.width x y k := by
  unfold laneAt maskAt
  split_ifs with h0 h1
  · rw [h0, Buffer.complementAt, alignLanes_readMux]
  · rw [h1, Buffer.complementAt, alignLanes_readMux]
  · exact BitVec.and_zero.symm

/-- Writing the complement flips every bit the pixel owns. -/
theorem Buffer.writeBack_complementAt {b : Buffer} {x y k j : Nat} (h : ownsBit b.mode b.width x y k j) :
    (writeBack (b.byte k) (maskAt b.mode b.width x y k)
      (laneAt b.mode b.width x y k (b.complementAt x y))).getLsbD j = !(b.byte k).getLsbD j := by
  have hj := lt_eight_of_ownsBit h
  rw [ownsBit] at h
  simp only [writeBack, b.complementAt_lane, BitVec.getLsbD_or, BitVec.getLsbD_and, BitVec.getLsbD_not, h, hj,
    decide_true, Bool.not_true, Bool.and_false, Bool.false_or, Bool.true_and, Bool.and_true]

/-- At every width, writing the complement of a pixel changes what a pixel that shares a bit with it reads. -/
theorem Buffer.wf.complement_changes_aliased {p : Params} {b : Buffer} {x y x' y' k j : Nat} (hb : b.wf p)
    (hr : b.inRange x y) (hr' : b.inRange x' y') (hown : ownsBit b.mode b.width x y k j)
    (hown' : ownsBit b.mode b.width x' y' k j) :
    ∃ b', b.writePixel x y (b.complementAt x y) = some b' ∧ b'.readPixel x' y' ≠ b.readPixel x' y' := by
  obtain ⟨b', hw, -, hs, hk⟩ := hb.sound.writePixel_of_le (b.complementAt x y) (hb.touched_le hr)
  refine ⟨b', hw, fun h => ?_⟩
  have hbit := (hb.readPixel_eq_iff hs hr').1 h k j hown'
  rw [hk, Buffer.writeBack_complementAt hown] at hbit
  exact Bool.not_ne_self _ hbit

/-- Settles O25: by O23's unique owner with an even width, and by writing the complement of an aliased pixel. -/
theorem evenWidthWritesKeepEveryOtherPixel : Obligations.EvenWidthWritesKeepEveryOtherPixel := by
  unfold Obligations.EvenWidthWritesKeepEveryOtherPixel
  intro p b x y x' y' hb hr hr' hne
  refine ⟨fun heven v b' hw => hb.writePixel_keeps_other heven hr hr' hne hw, ?_⟩
  rintro - - ⟨k, j, hown, hown'⟩
  obtain ⟨b', hw, hread⟩ := hb.complement_changes_aliased hr hr' hown hown'
  exact ⟨b.complementAt x y, b', readMux_fits _ _ _ _, hw, hread⟩

/-! ## SETPX and then GETPX (R114, R123, R124) -/

/-- The value a command takes from OPV, as R76 counts it. -/
theorem operandV_toNat (s : State) (mode : Mode) : (s.operandV mode).toNat = operandNumber s mode := by
  obtain ⟨-, -, -, -, hgray, hrgb, -⟩ := operandsAreReadAsTheRuleSays s
  cases mode with
  | gray4 => exact hgray
  | rgb444 => exact hrgb

theorem operandV_fits (s : State) (mode : Mode) : valueFits mode (s.operandV mode) := by
  rintro rfl
  rw [operandV_toNat, operandNumber]
  exact Nat.mod_lt _ (by decide)

/-- GETPX on a pixel that reads v completes with v in RES_VAL (R123). -/
theorem execGetpx_of_readPixel {s : State} {sel : Slot} {b : Buffer} {v : Packed} (hb : s.slot sel = some b)
    (hp : s.pixelIn b) (hv : b.readPixel s.operandX.toNat s.operandY.toNat = some v) :
    exec (.getpx sel) s = .next ((s.setPixel (v.setWidth 32) (rgbWord (expandColour b.mode v))).recordAccess b
      s.operandX.toNat s.operandY.toNat).complete := by
  rw [exec, execGetpx, withPixel_of_inRange hb ⟨hp.1.1, by omega⟩ ⟨hp.1.2, by omega⟩, hv, withStored_some]

/-- Settles O32: SETPX ended OK, so it wrote the pixel, and the pixel reads back. -/
theorem setpxThenGetpxReturnsTheOperand : Obligations.SetpxThenGetpxReturnsTheOperand := by
  unfold Obligations.SetpxThenGetpxReturnsTheOperand
  intro s t sel b hs hb h hok
  obtain rfl | rfl | ⟨c, b', hc, ⟨hpos, hr⟩, hw, ht⟩ := execSetpx_next h
  · simp at hok
  · simp at hok
  · obtain rfl : c = b := Option.some.inj (hc.symm.trans hb)
    have hslot : t.slot sel = some b' := by simp [ht]
    have hx : t.operandX = s.operandX := by simp [ht, State.operandX]
    have hy : t.operandY = s.operandY := by simp [ht, State.operandY]
    have hin : t.pixelIn b' := by
      rw [State.pixelIn, hx, hy]
      exact ⟨hpos, (Buffer.writePixel_sameShape hw).inRange hr⟩
    have hread : b'.readPixel t.operandX.toNat t.operandY.toNat = some (s.operandV c.mode) := by
      obtain ⟨b'', hw', hread⟩ := aWrittenPixelReadsBackItsValue s.params c _ _ _ (hs.slot_wf hb) hr
        (operandV_fits s c.mode)
      rw [hw] at hw'
      rw [hx, hy, Option.some.inj hw', hread]
    refine ⟨_, execGetpx_of_readPixel hslot hin hread, by simp, ?_⟩
    rw [State.complete_resVal, State.recordAccess_resVal, State.setPixel_resVal,
      BitVec.toNat_setWidth_of_le (by decide), operandV_toNat]

/-! ## Colour expansion (R110, R111) -/

/-- 255 = 15 * 17, so the Rgb444 expansion rounds nothing (R111). -/
theorem expandChannel_toNat (c : BitVec 4) : (expandChannel c).toNat = 17 * c.toNat := by revert c; decide

/-- A Gray4 value moves into the high nibble. -/
theorem gray_channel_toNat {v : Packed} (h : v.toNat < 16) : (v.setWidth 8 <<< 4).toNat = 16 * v.toNat := by
  rw [BitVec.toNat_shiftLeft, BitVec.toNat_setWidth, Nat.shiftLeft_eq]
  omega

/-- The channel at bit i of an Rgb444 value, expanded. -/
theorem rgb_channel_toNat (v : Packed) (i : Nat) :
    (expandChannel (v.extractLsb' i 4)).toNat = 17 * (v.toNat / 2 ^ i % 16) := by
  rw [expandChannel_toNat, BitVec.extractLsb'_toNat, Nat.shiftRight_eq_div_pow]

/-- Settles O26, channel by channel. -/
theorem grayExpandsBySixteenAndRgbBySeventeen : Obligations.GrayExpandsBySixteenAndRgbBySeventeen := by
  unfold Obligations.GrayExpandsBySixteenAndRgbBySeventeen
  intro v
  refine ⟨fun h => ⟨gray_channel_toNat h, gray_channel_toNat h, gray_channel_toNat h⟩,
    (rgb_channel_toNat v 8).trans ?_, rgb_channel_toNat v 4, (rgb_channel_toNat v 0).trans ?_⟩
  · have hv := v.isLt
    omega
  · omega

end Sys2Proof.Machine

/-! PROOFS. The pixel access commands (41_pixel_access.md): what ADDR, GETPX, SETPX and INVERT answer, with the access
record, the value read, the colour and the bytes written as numbers. -/

namespace Sys2Proof.Machine

/-! ## The coordinate check (R121) -/

theorem withPixel_of_outside {s : State} {sel : Slot} {b : Buffer} {k : Buffer → Nat → Nat → Result}
    (hb : s.slot sel = some b)
    (h : ¬((0 ≤ s.operandX ∧ s.operandX < b.width) ∧ (0 ≤ s.operandY ∧ s.operandY < b.height))) :
    withPixel s sel k = .next (s.raise .coordFault) := by
  rw [withPixel, withBuffer_some hb, if_neg (by rwa [and_assoc] at h)]

/-- Settles O28: the three commands share the check, and it fails before the rest of the command. -/
theorem outOfRangeCoordinatesRaiseCoordFault : Obligations.OutOfRangeCoordinatesRaiseCoordFault := by
  unfold Obligations.OutOfRangeCoordinatesRaiseCoordFault
  intro s sel b hb hout i hi
  simp only [List.mem_cons, List.not_mem_nil, or_false] at hi
  obtain rfl | rfl | rfl := hi
  · rw [exec, execAddr, withPixel_of_outside hb hout, State.raise]
  · rw [exec, execGetpx, withPixel_of_outside hb hout, State.raise]
  · rw [exec, execSetpx, withPixel_of_outside hb hout, State.raise]

/-- Operands that are numbers name a pixel of the buffer when the numbers do. -/
theorem State.pixelIn_of_operands {s : State} {b : Buffer} {x y : Nat} (hx : s.operandX = x) (hy : s.operandY = y)
    (hr : b.inRange x y) : s.pixelIn b ∧ s.operandX.toNat = x ∧ s.operandY.toNat = y := by
  rw [State.pixelIn, hx, hy]
  exact ⟨⟨⟨by omega, by omega⟩, hr⟩, rfl, rfl⟩

theorem withPixel_of_pixelIn {s : State} {sel : Slot} {b : Buffer} {k : Buffer → Nat → Nat → Result}
    (hb : s.slot sel = some b) (hp : s.pixelIn b) : withPixel s sel k = k b s.operandX.toNat s.operandY.toNat := by
  obtain ⟨⟨hx, hy⟩, hr⟩ := hp
  exact withPixel_of_inRange hb ⟨hx, by omega⟩ ⟨hy, by omega⟩

/-! ## ADDR: the access record (R32, R33, R122) -/

/-- What the commands write to RES_ADDR and RES_INFO is what R32 and R33 give, row by row of R101 to R103 and R106. -/
theorem accessRecorded (b : Buffer) (x y : Nat) :
    AccessRecorded b x y (regOfNat (addressOf b.mode b.width x y)) (infoWord b.mode x) := by
  constructor
  · intro idx0 hidx hlt
    have haddr : addressOf b.mode b.width x y = idx0 := by
      rw [hidx]
      cases b.mode with
      | gray4 => exact addressOf_gray4 b.width x y
      | rgb444 =>
        rcases Nat.mod_two_eq_zero_or_one x with hx | hx
        · exact (addressOf_rgb444_even hx _ y).trans (if_pos hx).symm
        · exact (addressOf_rgb444_odd hx _ y).trans (if_neg (by omega)).symm
    rw [haddr, regOfNat_toNat hlt]
  · rcases Nat.mod_two_eq_zero_or_one x with hx | hx
    · rw [infoWord, phaseOf_of_even hx, hx]
      cases b.mode <;> rfl
    · rw [infoWord, phaseOf_of_odd hx, hx]
      cases b.mode <;> rfl

theorem execAddr_of_pixelIn {s : State} {sel : Slot} {b : Buffer} (hb : s.slot sel = some b) (hp : s.pixelIn b) :
    exec (.addr sel) s = .next (s.recordAccess b s.operandX.toNat s.operandY.toNat).complete := by
  rw [exec, execAddr, withPixel_of_pixelIn hb hp]

/-- Settles O29: past the check ADDR only records the access. -/
theorem addrReportsTheAddressAndMasks : Obligations.AddrReportsTheAddressAndMasks := by
  unfold Obligations.AddrReportsTheAddressAndMasks
  intro s sel b x y hb hx hy hr
  obtain ⟨hp, rfl, rfl⟩ := State.pixelIn_of_operands hx hy hr
  exact ⟨_, _, execAddr_of_pixelIn hb hp, accessRecorded b _ _⟩

/-! ## GETPX: the value and the colour as numbers (R108, R110, R123) -/

/-- Bits moved up over bits that fit below them: the numbers add. -/
theorem shiftLeft_or_toNat {n i : Nat} {h l : BitVec n} (hl : l.toNat < 2 ^ i) (hh : h.toNat * 2 ^ i < 2 ^ n) :
    (h <<< i ||| l).toNat = h.toNat * 2 ^ i + l.toNat := by
  rw [BitVec.toNat_or, BitVec.toNat_shiftLeft, Nat.shiftLeft_eq, Nat.mod_eq_of_lt hh, Nat.mul_comm,
    Nat.two_pow_add_eq_or_of_lt hl]

theorem lowNibble_toNat (b : Byte) : (b &&& 0x0F#8).toNat = b.toNat % 16 := Nat.and_two_pow_sub_one_eq_mod b.toNat 4

theorem highNibble_toNat (b : Byte) : (b >>> 4).toNat = b.toNat / 16 := Nat.shiftRight_eq_div_pow b.toNat 4

/-- The read multiplexer as R108 counts. -/
theorem readMux_toNat (b0 b1 : Byte) :
    (readMux .gray4 .even b0 b1).toNat = b0.toNat / 16 ∧ (readMux .gray4 .odd b0 b1).toNat = b0.toNat % 16 ∧
    (readMux .rgb444 .even b0 b1).toNat = b0.toNat * 16 + b1.toNat / 16 ∧
    (readMux .rgb444 .odd b0 b1).toNat = b0.toNat % 16 * 256 + b1.toNat := by
  have widen (c : Byte) : (c.setWidth 12).toNat = c.toNat := BitVec.toNat_setWidth_of_le (by decide)
  have h0 := b0.isLt
  have h1 := b1.isLt
  refine ⟨?_, ?_, ?_, ?_⟩
  · rw [readMux, widen, highNibble_toNat]
  · rw [readMux, widen, lowNibble_toNat]
  · rw [readMux, shiftLeft_or_toNat] <;> simp only [widen, highNibble_toNat] <;> omega
  · rw [readMux, shiftLeft_or_toNat] <;> simp only [widen, lowNibble_toNat] <;> omega

/-- An in-range pixel reads a value of the mode's width, and its number is that of R108. -/
theorem Buffer.wf.readPixel_pixelNumber {p : Params} {b : Buffer} {x y : Nat} (hb : b.wf p) (hr : b.inRange x y) :
    ∃ v, b.readPixel x y = some v ∧ valueFits b.mode v ∧ v.toNat = pixelNumber b x y := by
  refine ⟨_, Buffer.readPixel_of_le (hb.touched_le hr), readMux_fits _ _ _ _, ?_⟩
  unfold pixelNumber
  generalize b.byte (addressOf b.mode b.width x y) = b0
  generalize b.byte (addressOf b.mode b.width x y + 1) = b1
  obtain ⟨hge, hgo, hre, hro⟩ := readMux_toNat b0 b1
  rcases Nat.mod_two_eq_zero_or_one x with hx | hx
  · rw [phaseOf_of_even hx, hx]
    cases b.mode with
    | gray4 => exact hge
    | rgb444 => exact hre
  · rw [phaseOf_of_odd hx, hx]
    cases b.mode with
    | gray4 => exact hgo
    | rgb444 => exact hro

/-- RES_RGB as R31 counts. -/
theorem rgbWord_toNat (r g b : Byte) : (rgbWord (r, g, b)).toNat = r.toNat * 65536 + g.toNat * 256 + b.toNat := by
  have widen (c : Byte) : (c.setWidth 32).toNat = c.toNat := BitVec.toNat_setWidth_of_le (by decide)
  have hr := r.isLt
  have hg := g.isLt
  have hb := b.isLt
  have hgb : (g.setWidth 32 <<< 8 ||| b.setWidth 32).toNat = g.toNat * 256 + b.toNat := by
    rw [shiftLeft_or_toNat] <;> simp only [widen] <;> omega
  rw [rgbWord, BitVec.or_assoc, shiftLeft_or_toNat] <;> simp only [hgb, widen] <;> omega

/-- The colour word of a value of the mode's width (R31, R110). -/
theorem rgbWord_expandColour_toNat {mode : Mode} {v : Packed} (hv : valueFits mode v) :
    (rgbWord (expandColour mode v)).toNat = colourNumber mode v.toNat := by
  have hlt := v.isLt
  cases mode with
  | gray4 => simp only [expandColour, rgbWord_toNat, gray_channel_toNat (hv rfl), colourNumber]; omega
  | rgb444 => simp only [expandColour, rgbWord_toNat, rgb_channel_toNat, colourNumber]; omega

/-- Settles O30: the pixel lies inside the storage, so it reads, and its value and colour are the rules' numbers. -/
theorem getpxReadsAndExpandsThePixel : Obligations.GetpxReadsAndExpandsThePixel := by
  unfold Obligations.GetpxReadsAndExpandsThePixel
  intro s sel b x y hs hb hx hy hr
  obtain ⟨hp, rfl, rfl⟩ := State.pixelIn_of_operands hx hy hr
  obtain ⟨v, hread, hfits, hv⟩ := (hs.slot_wf hb).readPixel_pixelNumber hr
  refine ⟨v.setWidth 32, rgbWord (expandColour b.mode v), _, _, execGetpx_of_readPixel hb hp hread, ?_, ?_,
    accessRecorded b _ _⟩
  · rw [BitVec.toNat_setWidth_of_le (by decide), hv]
  · rw [rgbWord_expandColour_toNat hfits, hv]

/-! ## SETPX: the bytes as numbers (R107, R109, R124) -/

/-- The lanes as R107 counts. -/
theorem alignLanes_toNat (v : Packed) :
    (alignLanes .gray4 .even v).1.toNat = v.toNat % 16 * 16 ∧ (alignLanes .gray4 .odd v).1.toNat = v.toNat % 16 ∧
    (alignLanes .rgb444 .even v).1.toNat = v.toNat / 16 ∧ (alignLanes .rgb444 .even v).2.toNat = v.toNat % 16 * 16 ∧
    (alignLanes .rgb444 .odd v).1.toNat = v.toNat / 256 ∧ (alignLanes .rgb444 .odd v).2.toNat = v.toNat % 256 := by
  have hlt := v.isLt
  have h4 : (v &&& 0xF#12).toNat = v.toNat % 16 := Nat.and_two_pow_sub_one_eq_mod v.toNat 4
  have h8 : (v &&& 0xFF#12).toNat = v.toNat % 256 := Nat.and_two_pow_sub_one_eq_mod v.toNat 8
  simp only [alignLanes, BitVec.toNat_setWidth, BitVec.toNat_shiftLeft, BitVec.toNat_ushiftRight, Nat.shiftLeft_eq,
    Nat.shiftRight_eq_div_pow, h4, h8]
  omega

/-- A write of the low nibble keeps the high one. -/
theorem writeBack_low_toNat (o : Byte) {d : Byte} (hd : d.toNat < 16) :
    (writeBack o 0x0F#8 d).toNat = o.toNat / 16 * 16 + d.toNat := by
  have hkeep : (o &&& ~~~0x0F#8).toNat = 2 ^ 4 * (o.toNat / 16) := by revert o; decide
  rw [writeBack, BitVec.toNat_or, hkeep, ← Nat.two_pow_add_eq_or_of_lt hd]
  omega

/-- A write of the high nibble keeps the low one. -/
theorem writeBack_high_toNat (o : Byte) {d : Byte} {n : Nat} (hd : d.toNat = n * 16) :
    (writeBack o 0xF0#8 d).toNat = n * 16 + o.toNat % 16 := by
  have hkeep : (o &&& ~~~0xF0#8).toNat = o.toNat % 16 := lowNibble_toNat o
  rw [writeBack, BitVec.toNat_or, hkeep, hd, Nat.or_comm, Nat.mul_comm,
    ← Nat.two_pow_add_eq_or_of_lt (i := 4) (Nat.mod_lt _ (by decide))]

/-- A write of the whole byte keeps nothing. -/
theorem writeBack_whole (o d : Byte) : writeBack o 0xFF#8 d = d := by
  have hkeep : ~~~0xFF#8 = 0#8 := rfl
  rw [writeBack, hkeep, BitVec.and_zero, BitVec.zero_or]

/-- WritePixel at an in-range pixel, as R107 and R109 count. -/
theorem Buffer.wf.writePixel_stored {p : Params} {b : Buffer} {x y : Nat} {v : Packed} (hb : b.wf p)
    (hr : b.inRange x y) (hv : valueFits b.mode v) :
    ∃ b', b.writePixel x y v = some b' ∧ PixelStored b b' x y v.toNat := by
  obtain ⟨b', hw, -, hsh, hk⟩ := hb.sound.writePixel_of_le v (hb.touched_le hr)
  refine ⟨b', hw, hsh, ?_⟩
  have h0 := hk (addressOf b.mode b.width x y)
  have h1 := hk (addressOf b.mode b.width x y + 1)
  rw [maskAt_addressOf, laneAt_addressOf] at h0
  rw [maskAt_addressOf_succ, laneAt_addressOf_succ] at h1
  have hother (k : Nat) (hk0 : k ≠ addressOf b.mode b.width x y) (hk1 : k ≠ addressOf b.mode b.width x y + 1) :
      b'.byte k = b.byte k := by
    rw [hk, maskAt_of_ne hk0 hk1, laneAt_of_ne v hk0 hk1, writeBack_zero]
  obtain ⟨hge, hgo, hre0, hre1, hro0, hro1⟩ := alignLanes_toNat v
  cases hm : b.mode with
  | gray4 =>
    rw [hm] at h0 h1 hother
    have hsmall := Nat.mod_eq_of_lt (hv hm)
    refine ⟨?_, fun k hk0 => ?_⟩
    · rcases Nat.mod_two_eq_zero_or_one x with hx | hx
      · rw [h0, phaseOf_of_even hx, hx, pixelMasks, writeBack_high_toNat _ hge, hsmall]; rfl
      · rw [h0, phaseOf_of_odd hx, hx, pixelMasks, writeBack_low_toNat _ (by omega), hgo, hsmall]; rfl
    · by_cases hk1 : k = addressOf .gray4 b.width x y + 1
      · rw [hk1, h1, pixelMasks_gray4_snd, alignLanes_gray4_snd, writeBack_zero]
      · exact hother k hk0 hk1
  | rgb444 =>
    rw [hm] at h0 h1 hother
    refine ⟨?_, ?_, hother⟩
    · rcases Nat.mod_two_eq_zero_or_one x with hx | hx
      · rw [h0, phaseOf_of_even hx, hx, pixelMasks, writeBack_whole, hre0]; rfl
      · have hlt := v.isLt
        rw [h0, phaseOf_of_odd hx, hx, pixelMasks, writeBack_low_toNat _ (by omega), hro0]; rfl
    · rcases Nat.mod_two_eq_zero_or_one x with hx | hx
      · rw [h1, phaseOf_of_even hx, hx, pixelMasks, writeBack_high_toNat _ hre1]; rfl
      · rw [h1, phaseOf_of_odd hx, hx, pixelMasks, writeBack_whole, hro1]; rfl

/-- SETPX on a pixel that the write answers for completes with the buffer it answered (R124). -/
theorem execSetpx_of_writePixel {s : State} {sel : Slot} {b b' : Buffer} (hb : s.slot sel = some b) (hp : s.pixelIn b)
    (hw : b.writePixel s.operandX.toNat s.operandY.toNat (s.operandV b.mode) = some b') :
    exec (.setpx sel) s =
      .next ((s.setSlot sel b').recordAccess b s.operandX.toNat s.operandY.toNat).complete := by
  rw [exec, execSetpx, withPixel_of_pixelIn hb hp, hw, withStored_some]

/-- Settles O31: the operand is cut to the mode's width, and the pixel it is written to lies inside the storage. -/
theorem setpxWritesOnlyThePixel : Obligations.SetpxWritesOnlyThePixel := by
  unfold Obligations.SetpxWritesOnlyThePixel
  intro s sel b x y hs hb hx hy hr
  obtain ⟨hp, rfl, rfl⟩ := State.pixelIn_of_operands hx hy hr
  obtain ⟨b', hw, hst⟩ := (hs.slot_wf hb).writePixel_stored hr (operandV_fits s b.mode)
  rw [operandV_toNat] at hst
  exact ⟨b', _, _, execSetpx_of_writePixel hb hp hw, hst, accessRecorded b _ _⟩

/-! ## INVERT, and what the reading commands leave of the slots (R122, R123, R125, R184) -/

/-- Settles O33: INVERT tests nothing before it raises. -/
theorem invertAlwaysRaisesNotImplemented : Obligations.InvertAlwaysRaisesNotImplemented := by
  unfold Obligations.InvertAlwaysRaisesNotImplemented
  exact fun s sel => rfl

/-- Settles O56: a raised code changes no slot, and the commands that complete by storing into one are not among the
four. -/
theorem readingCommandsLeaveStorageAlone : Obligations.ReadingCommandsLeaveStorageAlone := by
  unfold Obligations.ReadingCommandsLeaveStorageAlone
  intro s t sel i hi h k
  rcases exec_next h with ⟨c, -, rfl⟩ | h
  · exact s.raise_slot c k
  · cases h with
    | addr | getpx | rawrd => simp
    | config | setpx => simp at hi
    | store sel' _ b b' hi' =>
      simp only [List.mem_cons, List.not_mem_nil, or_false] at hi'
      obtain rfl | rfl | rfl | rfl := hi' <;> simp at hi

end Sys2Proof.Machine

/-! PROOFS. FILL (42_fill.md): the pattern as numbers, what FILL leaves at every byte, and what the pixels of a filled
buffer read. -/

namespace Sys2Proof.Machine

/-! ## What FILL stores (R140 to R144) -/

/-- Byte i mod u of the fill pattern as R140 and R141 count. -/
theorem fillPattern_getElem_toNat {mode : Mode} {v : Packed} (hv : valueFits mode v) (i : Nat) :
    (((fillPattern mode v)[i % (fillPattern mode v).length]?).getD 0#8).toNat = fillNumber mode v.toNat i := by
  have hlt := v.isLt
  cases mode with
  | gray4 =>
    have hsmall := hv rfl
    have hlow : ((v.setWidth 4).setWidth 8).toNat = v.toNat := by simp only [BitVec.toNat_setWidth]; omega
    simp only [fillPattern, fillNumber, List.length_singleton, Nat.mod_one, List.getElem?_cons_zero, Option.getD_some]
    rw [shiftLeft_or_toNat] <;> rw [hlow] <;> omega
  | rgb444 =>
    have h4 : (v &&& 0xF#12).toNat = v.toNat % 16 := Nat.and_two_pow_sub_one_eq_mod v.toNat 4
    have h8 : (v &&& 0xFF#12).toNat = v.toNat % 256 := Nat.and_two_pow_sub_one_eq_mod v.toNat 8
    have hhigh (k : Nat) : (v >>> k).toNat = v.toNat / 2 ^ k := Nat.shiftRight_eq_div_pow v.toNat k
    have first : ((v >>> 4).setWidth 8).toNat = v.toNat / 16 := by rw [BitVec.toNat_setWidth, hhigh]; omega
    have second : (((v &&& 0xF#12) <<< 4 ||| v >>> 8).setWidth 8).toNat = v.toNat % 16 * 16 + v.toNat / 256 := by
      rw [BitVec.toNat_setWidth, shiftLeft_or_toNat] <;> simp only [h4, hhigh] <;> omega
    have third : ((v &&& 0xFF#12).setWidth 8).toNat = v.toNat % 256 := by rw [BitVec.toNat_setWidth, h8]; omega
    simp only [fillPattern, fillNumber, List.length_cons, List.length_nil, Nat.zero_add, Nat.reduceAdd]
    obtain h | h | h : i % 3 = 0 ∨ i % 3 = 1 ∨ i % 3 = 2 := by omega
    · rw [h]; exact first
    · rw [h]; exact second
    · rw [h]; exact third

/-- Every storage byte is that of the fill pattern of the number n (R143). -/
def Buffer.Filled (b : Buffer) (n : Nat) : Prop := ∀ i, i < b.len → (b.byte i).toNat = fillNumber b.mode n i

/-- FILL on a valid slot completes with the buffer filled, its shape and the bytes above the length as they were
(R144). -/
theorem execFill_of_slot {s : State} {sel : Slot} {b : Buffer} (hs : s.Inv) (hb : s.slot sel = some b) :
    ∃ b', exec (.fill sel) s = .next (s.setSlot sel b').complete ∧ b.Continues b' ∧
      b'.Filled (operandNumber s b.mode) ∧ ∀ i, b.len ≤ i → b'.byte i = b.byte i := by
  obtain ⟨b', hfill, hc, hin, hout⟩ :=
    (hs.slot_wf hb).sound.fillAll_spec (fillPattern_ne_nil b.mode (s.operandV b.mode))
  refine ⟨b', by rw [exec, execFill, withBuffer_some hb, hfill, withStored_some], hc, fun i hi => ?_, hout⟩
  obtain ⟨-, hm, -, -, hl⟩ := hc
  rw [hin i (hl ▸ hi), fillPattern_getElem_toNat (operandV_fits s b.mode), operandV_toNat, hm]

/-- Settles O34: the doubling copy leaves the pattern, and the pattern's bytes are the rules' numbers. -/
theorem fillStoresThePatternAtEveryByte : Obligations.FillStoresThePatternAtEveryByte := by
  unfold Obligations.FillStoresThePatternAtEveryByte
  intro s sel hs
  constructor
  · intro hnone
    rw [exec, execFill, withBuffer_none hnone, State.raise]
  · intro b hb
    obtain ⟨b', hexec, ⟨-, hshape⟩, hfilled, hout⟩ := execFill_of_slot hs hb
    obtain ⟨hm, -, -, hl⟩ := id hshape
    refine ⟨b', hexec, hshape, fun i hi => ?_, hout⟩
    rw [hfilled i (hl.symm ▸ hi), hm]

/-! ## What the pixels of a filled buffer read (R145) -/

/-- Where the row starts at an even pixel of the storage, the pixel starts at its phase in the three-byte pattern. -/
theorem addressOf_rgb444_mod_three {w x y : Nat} (h : y * w % 2 = 0) : addressOf .rgb444 w x y % 3 = x % 2 := by
  rcases Nat.mod_two_eq_zero_or_one x with hx | hx
  · rw [addressOf_rgb444_even hx]; omega
  · rw [addressOf_rgb444_odd hx]; omega

section
variable {p : Params} {b : Buffer} {x y n : Nat} (hf : b.Filled n) (hb : b.wf p) (hr : b.inRange x y)
include hf hb hr

/-- In a filled Gray4 buffer every pixel is the value. -/
theorem Buffer.Filled.pixelNumber_gray4 (hm : b.mode = .gray4) : pixelNumber b x y = n := by
  have hle := hb.touched_le hr
  rw [hm] at hle
  have hbyte := hf (addressOf .gray4 b.width x y) (by simpa using hle)
  simp only [hm, fillNumber] at hbyte
  simp only [pixelNumber, hm, hbyte]
  split <;> omega

/-- In a filled Rgb444 buffer a pixel's two bytes are those of the pattern from its start on. -/
theorem Buffer.Filled.pixelNumber_rgb444 (hm : b.mode = .rgb444) :
    pixelNumber b x y =
      if x % 2 = 0 then
        fillNumber .rgb444 n (addressOf .rgb444 b.width x y) * 16 +
          fillNumber .rgb444 n (addressOf .rgb444 b.width x y + 1) / 16
      else
        fillNumber .rgb444 n (addressOf .rgb444 b.width x y) % 16 * 256 +
          fillNumber .rgb444 n (addressOf .rgb444 b.width x y + 1) := by
  have hle := hb.touched_le hr
  rw [hm, bytesTouched_rgb444] at hle
  have h0 := hf (addressOf .rgb444 b.width x y) (by omega)
  have h1 := hf (addressOf .rgb444 b.width x y + 1) (by omega)
  rw [hm] at h0 h1
  simp only [pixelNumber, hm, h0, h1]

/-- Where the row starts at an even pixel of the storage, every pixel of a filled Rgb444 buffer is the value. -/
theorem Buffer.Filled.pixelNumber_rgb444_uniform (hm : b.mode = .rgb444) (hn : n < 4096)
    (hrow : y * b.width % 2 = 0) : pixelNumber b x y = n := by
  have hmod := addressOf_rgb444_mod_three (x := x) hrow
  rw [hf.pixelNumber_rgb444 hb hr hm]
  simp only [fillNumber]
  split_ifs <;> omega

end

/-- With an odd width row 1 starts in the middle of the pattern, so its first pixel is the value rotated by one
nibble. -/
theorem Buffer.Filled.pixelNumber_rgb444_rotated {p : Params} {b : Buffer} {n : Nat} (hf : b.Filled n) (hb : b.wf p)
    (hr : b.inRange 0 1) (hm : b.mode = .rgb444) (hodd : b.width % 2 = 1) :
    pixelNumber b 0 1 = n % 16 * 256 + n / 16 := by
  have hmod : addressOf .rgb444 b.width 0 1 % 3 = 1 := by rw [addressOf_rgb444_even (Nat.zero_mod 2)]; omega
  rw [hf.pixelNumber_rgb444 hb hr hm]
  simp only [fillNumber]
  split_ifs <;> omega

/-- A pixel reads the value whose number it holds. -/
theorem Buffer.wf.readPixel_of_pixelNumber {p : Params} {b : Buffer} {x y : Nat} {v : Packed} (hb : b.wf p)
    (hr : b.inRange x y) (h : pixelNumber b x y = v.toNat) : b.readPixel x y = some v := by
  obtain ⟨u, hread, -, hu⟩ := hb.readPixel_pixelNumber hr
  rw [hread, BitVec.eq_of_toNat_eq (hu.trans h)]

/-- Settles O35: the pattern has period one byte in Gray4, and in Rgb444 the rows keep to its three bytes unless an odd
width moves row 1. -/
theorem fillIsUniformUnlessRgbWithOddWidth : Obligations.FillIsUniformUnlessRgbWithOddWidth := by
  unfold Obligations.FillIsUniformUnlessRgbWithOddWidth
  intro s t sel b b' hs hb h hb'
  obtain ⟨c, hexec, ⟨hsound, hshape⟩, hfilled, -⟩ := execFill_of_slot hs hb
  obtain rfl := Host.Outcome.next.inj (h.symm.trans hexec)
  obtain rfl : c = b' := by simpa using hb'
  have hwf := (hs.slot_wf hb).of_sameShape hshape hsound
  have hv := operandV_toNat s b.mode
  obtain ⟨hm, hw, hh, -⟩ := id hshape
  constructor
  · intro hcase x y hr
    have hr' : c.inRange x y := hshape.inRange hr
    refine hwf.readPixel_of_pixelNumber hr' ?_
    rw [hv]
    cases hmode : b.mode with
    | gray4 =>
      rw [hmode] at hm hfilled
      exact hfilled.pixelNumber_gray4 hwf hr' hm
    | rgb444 =>
      rw [hmode] at hm hfilled
      have hrow : y * c.width % 2 = 0 := by
        rw [hw]
        rcases hcase with hg | heven | hone
        · rw [hmode] at hg; cases hg
        · rw [Nat.mul_mod, heven]; rfl
        · obtain rfl : y = 0 := by omega
          rw [Nat.zero_mul]
      exact hfilled.pixelNumber_rgb444_uniform hwf hr' hm (Nat.mod_lt _ (by decide)) hrow
  · intro hmode hodd htwo
    rw [hmode] at hm hv hfilled
    have hr' : c.inRange 0 1 := ⟨by omega, by omega⟩
    obtain ⟨v, hread, -, hnum⟩ := hwf.readPixel_pixelNumber hr'
    refine ⟨v, hread, ?_⟩
    rw [hnum, hv, hfilled.pixelNumber_rgb444_rotated hwf hr' hm (hw ▸ hodd)]

end Sys2Proof.Machine

/-! PROOFS. FILLRECT (42_fill.md): the range check, what a loop of pixel writes leaves at every storage bit, and what
that is for the rectangle in row-major order. -/

namespace Sys2Proof.Machine

/-! ## The range check and the empty rectangle (R146, R148) -/

/-- Settles O36: the check comes before any write. -/
theorem rectanglesOutsideTheBufferRaiseRangeError : Obligations.RectanglesOutsideTheBufferRaiseRangeError := by
  unfold Obligations.RectanglesOutsideTheBufferRaiseRangeError
  intro s sel b hb hout
  rw [exec, execFillrect, withBuffer_some hb, if_pos hout, State.raise]

/-- FILLRECT past the check completes with the buffer its pixel loop answers (R147). -/
theorem execFillrect_of_fillPixels {s : State} {sel : Slot} {b b' : Buffer} (hb : s.slot sel = some b)
    (hx : 0 ≤ s.operandX) (hy : 0 ≤ s.operandY) (hw : s.operandX + s.operandW ≤ b.width)
    (hh : s.operandY + s.operandH ≤ b.height)
    (hfill : b.fillPixels (rowMajor s.operandX.toNat s.operandY.toNat s.operandW.toNat s.operandH.toNat)
      (s.operandV b.mode) = some b') :
    exec (.fillrect sel) s = .next (s.setSlot sel b').complete := by
  rw [exec, execFillrect, withBuffer_some hb, if_neg (by omega), hfill, withStored_some]

theorem rowMajor_eq_nil {x y w h : Nat} (he : w = 0 ∨ h = 0) : rowMajor x y w h = [] := by
  refine List.eq_nil_iff_forall_not_mem.2 fun q hq => ?_
  have := mem_rowMajor.1 hq
  omega

/-- Putting back the buffer a slot holds changes nothing. -/
theorem State.setSlot_of_slot {s : State} {sel : Slot} {b : Buffer} (hb : s.slot sel = some b) :
    s.setSlot sel b = s := by
  cases sel
  · rw [State.setSlot, ← hb, State.slot_s0]
  · rw [State.setSlot, ← hb, State.slot_s1]

/-- Settles O38: the loop has no pixel. -/
theorem emptyRectanglesWriteNothing : Obligations.EmptyRectanglesWriteNothing := by
  unfold Obligations.EmptyRectanglesWriteNothing
  intro s sel b hb hx hy hw hh hempty
  have hfill : b.fillPixels (rowMajor s.operandX.toNat s.operandY.toNat s.operandW.toNat s.operandH.toNat)
      (s.operandV b.mode) = some b := by
    rw [rowMajor_eq_nil (by omega), Buffer.fillPixels, List.foldlM_nil]; rfl
  rw [execFillrect_of_fillPixels hb hx hy hw hh hfill, State.setSlot_of_slot hb, State.complete]

/-! ## What a loop of pixel writes leaves at every bit (R113, R147) -/

/-- One WritePixel of a loop: the pixel and the value. -/
structure PixelWrite where
  /-- The pixel's column. -/
  x : Nat
  /-- The pixel's row. -/
  y : Nat
  /-- The packed value written. -/
  value : Packed

/-- The writes of a loop, one after the other. -/
def Buffer.writePixels (b : Buffer) (ws : List PixelWrite) : Option Buffer :=
  ws.foldlM (fun c q => c.writePixel q.x q.y q.value) b

/-- The pixel of q comes before that of q' in row-major order. -/
def PixelWrite.before (q q' : PixelWrite) : Prop := laterPixel q'.x q'.y q.x q.y

/-- b' is b after the writes ws: a bit that no pixel of ws owns stays, and a bit that some pixel owns holds what the
row-major last such pixel's write puts there. -/
structure Buffer.LastWrites (b : Buffer) (ws : List PixelWrite) (b' : Buffer) : Prop where
  continues : b.Continues b'
  unowned : ∀ k j, (∀ q ∈ ws, ¬ownsBit b.mode b.width q.x q.y k j) →
    (b'.byte k).getLsbD j = (b.byte k).getLsbD j
  owned : ∀ q ∈ ws, ∀ k j, ownsBit b.mode b.width q.x q.y k j →
    (∀ q' ∈ ws, q.before q' → ¬ownsBit b.mode b.width q'.x q'.y k j) →
    (b'.byte k).getLsbD j = (laneAt b.mode b.width q.x q.y k q.value).getLsbD j

theorem Buffer.LastWrites.nil {b : Buffer} (hb : b.Sound) : b.LastWrites [] b :=
  ⟨.refl hb, fun _ _ _ => rfl, nofun⟩

/-- A write at a pixel puts its lane into every bit the pixel owns (R109). -/
theorem writeBack_getLsbD_of_owns {mode : Mode} {w x y k j : Nat} (old : Byte) (v : Packed)
    (h : ownsBit mode w x y k j) :
    (writeBack old (maskAt mode w x y k) (laneAt mode w x y k v)).getLsbD j = (laneAt mode w x y k v).getLsbD j := by
  have hj := lt_eight_of_ownsBit h
  have hmask : (maskAt mode w x y k).getLsbD j = true := h
  simp only [writeBack, BitVec.getLsbD_or, BitVec.getLsbD_and, BitVec.getLsbD_not, hmask, hj, decide_true,
    Bool.not_true, Bool.and_false, Bool.false_or]

/-- A write, and then the writes of pixels that come after it: what it put into a bit stays unless one of them owns the
bit. -/
theorem Buffer.LastWrites.cons {b c b' : Buffer} {q : PixelWrite} {ws : List PixelWrite} (hc : b.Continues c)
    (hbyte : ∀ k, c.byte k =
      writeBack (b.byte k) (maskAt b.mode b.width q.x q.y k) (laneAt b.mode b.width q.x q.y k q.value))
    (hlater : ∀ q' ∈ ws, q.before q') (h : c.LastWrites ws b') : b.LastWrites (q :: ws) b' := by
  obtain ⟨hrest, hunowned, howned⟩ := h
  obtain ⟨-, hm, hw, -⟩ := id hc
  rw [hm, hw] at hunowned howned
  refine ⟨hc.trans hrest, fun k j hno => ?_, fun q₁ hq₁ k j hown hlast => ?_⟩
  · obtain ⟨hq, hws⟩ := List.forall_mem_cons.1 hno
    rw [hunowned k j hws, hbyte, writeBack_getLsbD_of_not_owns _ _ hq]
  · obtain ⟨-, hws⟩ := List.forall_mem_cons.1 hlast
    rcases List.mem_cons.1 hq₁ with rfl | hq₁
    · rw [hunowned k j fun q' hq' => hws q' hq' (hlater q' hq'), hbyte, writeBack_getLsbD_of_owns _ _ hown]
    · exact howned q₁ hq₁ k j hown hws

/-- Writes at in-range pixels in row-major order answer, and each bit holds what its last writer put there. -/
theorem Buffer.wf.writePixels_lastWrites {p : Params} {ws : List PixelWrite} (hord : ws.Pairwise PixelWrite.before)
    {b : Buffer} (hb : b.wf p) (hr : ∀ q ∈ ws, b.inRange q.x q.y) :
    ∃ b', b.writePixels ws = some b' ∧ b.LastWrites ws b' := by
  induction ws generalizing b with
  | nil => exact ⟨b, rfl, .nil hb.sound⟩
  | cons q ws ih =>
    obtain ⟨hlater, hord⟩ := List.pairwise_cons.1 hord
    obtain ⟨hq, hr⟩ := List.forall_mem_cons.1 hr
    obtain ⟨c, hw, hsound, hshape, hbyte⟩ := hb.sound.writePixel_of_le q.value (hb.touched_le hq)
    obtain ⟨b', hws, hlast⟩ := ih hord (hb.of_sameShape hshape hsound) fun q' hq' => hshape.inRange (hr q' hq')
    exact ⟨b', by simpa [Buffer.writePixels, hw] using hws, .cons ⟨hsound, hshape⟩ hbyte hlater hlast⟩

/-! ## The rectangle in row-major order (R147) -/

/-- FILLRECT's loop as writes: one value at each pixel. -/
def fillWrites (pixels : List (Nat × Nat)) (v : Packed) : List PixelWrite := pixels.map fun q => ⟨q.1, q.2, v⟩

theorem Buffer.fillPixels_eq_writePixels (b : Buffer) (pixels : List (Nat × Nat)) (v : Packed) :
    b.fillPixels pixels v = b.writePixels (fillWrites pixels v) := by
  rw [Buffer.fillPixels, Buffer.writePixels, fillWrites, List.foldlM_map]

/-- rowMajor lists its pixels in row-major order. -/
theorem rowMajor_pairwise (x y w h : Nat) :
    (rowMajor x y w h).Pairwise fun q q' => laterPixel q'.1 q'.2 q.1 q.2 := by
  refine List.pairwise_flatMap.2 ⟨fun j _ => List.pairwise_map.2 ?_, ?_⟩
  · exact List.pairwise_lt_range.imp fun hi => .inr ⟨rfl, Nat.add_lt_add_left hi x⟩
  · refine List.pairwise_lt_range.imp fun {j j'} hj => ?_
    simp only [List.forall_mem_map]
    exact fun _ _ _ _ => .inl (Nat.add_lt_add_left hj y)

/-- The pixels of the loop are those of the rectangle in the operand registers. -/
theorem mem_rowMajor_operands {s : State} (hx : 0 ≤ s.operandX) (hy : 0 ≤ s.operandY) {i r : Nat} :
    (i, r) ∈ rowMajor s.operandX.toNat s.operandY.toNat s.operandW.toNat s.operandH.toNat ↔ s.inRectangle i r := by
  rw [mem_rowMajor, State.inRectangle]
  omega

/-- Settles O37: the rectangle's pixels are in range and written in row-major order. -/
theorem fillrectLeavesTheRowMajorLastWrite : Obligations.FillrectLeavesTheRowMajorLastWrite := by
  unfold Obligations.FillrectLeavesTheRowMajorLastWrite
  intro s sel b hs hb hx hy hw hh
  have hin := rectangle_inRange (s := s) (b := b) (by omega)
  obtain ⟨b', hfill, ⟨-, hshape⟩, hunowned, howned⟩ := (hs.slot_wf hb).writePixels_lastWrites
    (ws := fillWrites (rowMajor _ _ _ _) (s.operandV b.mode)) (List.pairwise_map.2 (rowMajor_pairwise _ _ _ _))
    (List.forall_mem_map.2 hin)
  rw [← Buffer.fillPixels_eq_writePixels] at hfill
  simp only [fillWrites, List.forall_mem_map, Prod.forall, mem_rowMajor_operands hx hy] at hunowned howned
  exact ⟨b', execFillrect_of_fillPixels hb hx hy hw hh hfill, hshape, fun k j _ =>
    ⟨hunowned k j, fun i r hrect hown hlast => howned i r hrect k j hown hlast⟩⟩

/-! ## FILLRECT on an even width (R150) -/

/-- A pixel whose bits hold the lanes of a value reads that value. -/
theorem Buffer.wf.readPixel_of_lanes {p : Params} {b c : Buffer} {x y : Nat} {v : Packed} (hb : b.wf p)
    (hs : b.sameShape c) (hr : b.inRange x y) (hv : valueFits b.mode v)
    (h : ∀ k j, ownsBit b.mode b.width x y k j →
      (c.byte k).getLsbD j = (laneAt b.mode b.width x y k v).getLsbD j) : c.readPixel x y = some v := by
  obtain ⟨hm, hw, -, hl⟩ := hs
  obtain ⟨h0, h1⟩ := (forall_ownsBit_iff (g := fun k => laneAt b.mode b.width x y k v)).1 h
  rw [laneAt_addressOf] at h0
  rw [laneAt_addressOf_succ] at h1
  rw [Buffer.readPixel_of_le (by rw [hm, hw, hl]; exact hb.touched_le hr), hm, hw, readMux_eq_iff.2 ⟨h0, h1⟩,
    readMux_alignLanes _ hv]

/-- Settles O39: with an even width a bit has one owner, so the last writer of a pixel's bits is that pixel or none. -/
theorem fillrectOnEvenWidthSetsExactlyTheRectangle : Obligations.FillrectOnEvenWidthSetsExactlyTheRectangle := by
  unfold Obligations.FillrectOnEvenWidthSetsExactlyTheRectangle
  intro s t sel b b' hs hb heven h hok hb'
  have hwf := hs.slot_wf hb
  have hpadding := (execFillrect_pixelsWritten hs hb hb' h).padding
  obtain rfl | rfl | ⟨c, c', hc, hcheck, -, rfl⟩ := execFillrect_next h
  · cases hok
  · cases hok
  obtain rfl : c = b := Option.some.inj (hc.symm.trans hb)
  obtain ⟨d, hexec, hshape, hbits⟩ :=
    fillrectLeavesTheRowMajorLastWrite s sel c hs hb (by omega) (by omega) (by omega) (by omega)
  have hslot := congrArg (State.slot · sel) (Host.Outcome.next.inj (hexec.symm.trans h))
  obtain rfl : d = b' := Option.some.inj ((State.setSlot_slot_same s sel d).symm.trans (hslot.trans hb'))
  have unique {i r i' r' k j : Nat} (hr : c.inRange i r) (hown : ownsBit c.mode c.width i r k j)
      (hin : s.inRectangle i' r') (hown' : ownsBit c.mode c.width i' r' k j) : i' = i ∧ r' = r :=
    Prod.mk.inj (ownsBit_unique heven (by omega) hr.1 hown' hown)
  refine ⟨fun i r hr => ⟨fun hin => ?_, fun hout => ?_⟩, hpadding⟩
  · refine hwf.readPixel_of_lanes hshape hr (operandV_fits s c.mode) fun k j hown => ?_
    refine (hbits k j (lt_eight_of_ownsBit hown)).2 i r hin hown fun i' r' hin' hlater hown' => ?_
    have := unique hr hown hin' hown'
    omega
  · refine (hwf.readPixel_eq_iff hshape hr).2 fun k j hown => ?_
    refine (hbits k j (lt_eight_of_ownsBit hown)).1 fun i' r' hin' hown' => hout ?_
    obtain ⟨rfl, rfl⟩ := unique hr hown hin' hown'
    exact hin'

end Sys2Proof.Machine

/-! PROOFS. BLIT (43_blit.md): the checks, the copied pixels as a loop of pixel writes, that a row of whole bytes is
such a loop along the row, and what BLIT leaves at every storage bit and every pixel. -/

namespace Sys2Proof.Machine

/-! ## The checks (R162, R163) -/

/-- Settles O40: the mode check comes first, then the fit, and both before any write. -/
theorem blitRefusesOtherModesAndMisfits : Obligations.BlitRefusesOtherModesAndMisfits := by
  unfold Obligations.BlitRefusesOtherModesAndMisfits
  intro s sel d src hd hsrc
  rw [exec, execBlit, withBuffer_some hd, withBuffer_some hsrc]
  refine ⟨fun hmode => ?_, fun hmode hout => ?_⟩
  · rw [if_pos hmode, State.raise]
  · rw [if_neg (not_not.2 hmode), if_pos hout, State.raise]

/-- BLIT past the checks completes with the buffer its storage operation answers (R170). -/
theorem execBlit_of_blitFrom {s : State} {sel : Slot} {d src d' : Buffer} {x y : Nat} (hd : s.slot sel = some d)
    (hsrc : s.slot (otherSlot sel) = some src) (hmode : d.mode = src.mode) (hx : s.operandX = x) (hy : s.operandY = y)
    (hw : x + src.width ≤ d.width) (hh : y + src.height ≤ d.height) (h : d.blitFrom src x y = some d') :
    exec (.blit sel) s = .next (s.setSlot sel d').complete := by
  rw [exec, execBlit, withBuffer_some hd, withBuffer_some hsrc, if_neg (not_not.2 hmode), if_neg (by omega), hx, hy,
    Int.toNat_natCast, Int.toNat_natCast, h, withStored_some]

/-! ## The copied pixels as writes (R168) -/

/-- The packed value of a pixel, as the read multiplexer gives it (R108). -/
def Buffer.pixelValue (b : Buffer) (x y : Nat) : Packed :=
  readMux b.mode (phaseOf x) (b.byte (addressOf b.mode b.width x y)) (b.byte (addressOf b.mode b.width x y + 1))

theorem Buffer.wf.readPixel_pixelValue {p : Params} {b : Buffer} {x y : Nat} (hb : b.wf p) (hr : b.inRange x y) :
    b.readPixel x y = some (b.pixelValue x y) := Buffer.readPixel_of_le (hb.touched_le hr)

theorem Buffer.pixelValue_fits (b : Buffer) (x y : Nat) : valueFits b.mode (b.pixelValue x y) := readMux_fits _ _ _ _

/-- The lanes of a pixel's value are its bits of the storage. -/
theorem Buffer.pixelValue_lane (b : Buffer) (x y k : Nat) :
    laneAt b.mode b.width x y k (b.pixelValue x y) = b.byte k &&& maskAt b.mode b.width x y k := by
  unfold laneAt maskAt
  split_ifs with h0 h1
  · rw [h0, Buffer.pixelValue, alignLanes_readMux]
  · rw [h1, Buffer.pixelValue, alignLanes_readMux]
  · exact BitVec.and_zero.symm

/-- The write of source pixel q into a destination at (x, y). -/
def Buffer.copyWrite (src : Buffer) (x y : Nat) (q : Nat × Nat) : PixelWrite :=
  ⟨x + q.1, y + q.2, src.pixelValue q.1 q.2⟩

@[simp] theorem Buffer.copyWrite_x (src : Buffer) (x y : Nat) (q : Nat × Nat) : (src.copyWrite x y q).x = x + q.1 := rfl

@[simp] theorem Buffer.copyWrite_y (src : Buffer) (x y : Nat) (q : Nat × Nat) : (src.copyWrite x y q).y = y + q.2 := rfl

@[simp] theorem Buffer.copyWrite_value (src : Buffer) (x y : Nat) (q : Nat × Nat) :
    (src.copyWrite x y q).value = src.pixelValue q.1 q.2 := rfl

/-- The copies of source pixels are ordered as the source pixels are. -/
theorem Buffer.copyWrite_before {src : Buffer} {x y : Nat} {q q' : Nat × Nat} :
    (src.copyWrite x y q).before (src.copyWrite x y q') ↔ laterPixel q'.1 q'.2 q.1 q.2 := by
  simp only [PixelWrite.before, Buffer.copyWrite_x, Buffer.copyWrite_y, laterPixel]
  omega

/-- The writes of BLIT: every source pixel in row-major order. -/
def Buffer.blitWrites (src : Buffer) (x y : Nat) : List PixelWrite :=
  (rowMajor 0 0 src.width src.height).map (src.copyWrite x y)

/-- The writes of one source row. -/
def Buffer.rowWrites (src : Buffer) (x y r : Nat) : List PixelWrite :=
  (List.range src.width).map fun i => src.copyWrite x y (i, r)

theorem Buffer.blitWrites_eq_rows (src : Buffer) (x y : Nat) :
    src.blitWrites x y = (List.range src.height).flatMap (src.rowWrites x y) := by
  simp only [Buffer.blitWrites, rowMajor, List.map_flatMap, List.map_map, Function.comp_def, Nat.zero_add]
  rfl

theorem Buffer.mem_blitWrites {src : Buffer} {x y : Nat} {q : PixelWrite} :
    q ∈ src.blitWrites x y ↔ ∃ i r, src.inRange i r ∧ src.copyWrite x y (i, r) = q := by
  simp [Buffer.blitWrites, mem_rowMajor]

theorem Buffer.blitWrites_pairwise (src : Buffer) (x y : Nat) : (src.blitWrites x y).Pairwise PixelWrite.before :=
  List.pairwise_map.2 ((rowMajor_pairwise 0 0 src.width src.height).imp Buffer.copyWrite_before.2)

theorem Buffer.rowWrites_pairwise (src : Buffer) (x y r : Nat) :
    (src.rowWrites x y r).Pairwise PixelWrite.before := by
  refine List.pairwise_map.2 (List.pairwise_lt_range.imp fun h => ?_)
  exact Buffer.copyWrite_before.2 (.inr ⟨rfl, h⟩)

theorem Buffer.sameShape.symm_trans {b c c' : Buffer} (h : b.sameShape c) (h' : b.sameShape c') : c.sameShape c' := by
  obtain ⟨hm, hw, hh, hl⟩ := h
  rwa [Buffer.sameShape, hm, hw, hh, hl]

theorem Buffer.writePixels_append (b : Buffer) (ws ws' : List PixelWrite) :
    b.writePixels (ws ++ ws') = (b.writePixels ws).bind fun c => c.writePixels ws' := List.foldlM_append

/-- The fallback is its writes (R168). -/
theorem Buffer.wf.copyPixels_eq_writePixels {p : Params} {src : Buffer} (hsrc : src.wf p) (d : Buffer) (x y : Nat) :
    d.copyPixels src x y = d.writePixels (src.blitWrites x y) := by
  have hin : ∀ q ∈ rowMajor 0 0 src.width src.height, src.inRange q.1 q.2 := fun q hq => by
    have := mem_rowMajor.1 hq
    exact ⟨by omega, by omega⟩
  unfold Buffer.copyPixels Buffer.writePixels Buffer.blitWrites
  generalize rowMajor 0 0 src.width src.height = pixels at hin
  induction pixels generalizing d with
  | nil => rfl
  | cons q pixels ih =>
    obtain ⟨hq, hin⟩ := List.forall_mem_cons.1 hin
    rw [List.foldlM_cons, List.map_cons, List.foldlM_cons, Buffer.copyPixel, hsrc.readPixel_pixelValue hq]
    exact bind_congr fun c => ih c hin

/-! ## The pixels of a row from an even column on (R106) -/

section
variable {mode : Mode} {w x : Nat} (hx : x % 2 = 0) (y i : Nat)
include hx

/-- From an even column on a pixel lies as far behind as in a row that begins the storage. -/
theorem addressOf_add_column : addressOf mode w (x + i) y = addressOf mode w x y + addressOf mode 0 i 0 := by
  cases mode with
  | gray4 => simp only [addressOf_gray4]; omega
  | rgb444 =>
    rw [addressOf_rgb444_even hx]
    rcases Nat.mod_two_eq_zero_or_one i with hi | hi
    · rw [addressOf_rgb444_even hi, addressOf_rgb444_even (by omega)]; omega
    · rw [addressOf_rgb444_odd hi, addressOf_rgb444_odd (by omega)]; omega

theorem phaseOf_add_column : phaseOf (x + i) = phaseOf i := by
  rw [phaseOf, phaseOf, Nat.add_mod, hx, Nat.zero_add, Nat.mod_mod]

theorem maskAt_add_column (m : Nat) : maskAt mode w (x + i) y (addressOf mode w x y + m) = maskAt mode 0 i 0 m := by
  simp only [maskAt, addressOf_add_column hx, phaseOf_add_column hx, Nat.add_assoc, Nat.add_right_inj]

theorem laneAt_add_column (m : Nat) (v : Packed) :
    laneAt mode w (x + i) y (addressOf mode w x y + m) v = laneAt mode 0 i 0 m v := by
  simp only [laneAt, addressOf_add_column hx, phaseOf_add_column hx, Nat.add_assoc, Nat.add_right_inj]

/-- Pixels from an even column on follow each other through the nibbles of their row without a gap, at every width. -/
theorem ownsBit_add_column_iff {m j : Nat} (hj : j < 8) :
    ownsBit mode w (x + i) y (addressOf mode w x y + m) j ↔ nibbleOf m j / nibblesPerPixel mode = i := by
  rw [ownsBit, maskAt_add_column hx]
  simpa using ownsBit_iff_of_even_width (mode := mode) (w := 0) (x := i) (y := 0) (k := m) rfl hj

theorem le_of_ownsBit_add_column {k j : Nat} (h : ownsBit mode w (x + i) y k j) : addressOf mode w x y ≤ k := by
  by_contra hlt
  rw [ownsBit, maskAt_of_ne (by rw [addressOf_add_column hx]; omega) (by rw [addressOf_add_column hx]; omega)] at h
  simp at h

end

/-- From an even column on, the lanes of a copied pixel are its bits of the source row. -/
theorem Buffer.copyWrite_lane (src : Buffer) {mode : Mode} (hmode : mode = src.mode) {w x : Nat} (hx : x % 2 = 0)
    (y i r : Nat) {m j : Nat} (h : ownsBit mode w (x + i) y (addressOf mode w x y + m) j) :
    (laneAt mode w (x + i) y (addressOf mode w x y + m) (src.pixelValue i r)).getLsbD j
      = (src.byte (addressOf src.mode src.width 0 r + m)).getLsbD j := by
  subst hmode
  have hlane := laneAt_add_column (mode := src.mode) (w := src.width) (Nat.zero_mod 2) r i m (src.pixelValue i r)
  have hmask := maskAt_add_column (mode := src.mode) (w := src.width) (Nat.zero_mod 2) r i m
  rw [ownsBit, maskAt_add_column hx, ← hmask] at h
  rw [laneAt_add_column hx, ← hlane]
  rw [Nat.zero_add] at h ⊢
  rw [src.pixelValue_lane, BitVec.getLsbD_and, h, Bool.and_true]

/-- The nibbles of the first n pixels are those of the row's bytes, n being even. -/
theorem nibbleOf_div_lt_iff {mode : Mode} {n m j : Nat} (hn : n % 2 = 0) :
    nibbleOf m j / nibblesPerPixel mode < n ↔ m < rowBytes mode n := by
  unfold nibbleOf
  cases mode <;> simp only [nibblesPerPixel, rowBytes] <;> omega

/-! ## A row of whole bytes is its pixel writes (R166, R167, R169) -/

section
variable {p : Params} {d src : Buffer} {x y : Nat} (hd : d.wf p) (hsrc : src.wf p) (hmode : d.mode = src.mode)
  (hw : x + src.width ≤ d.width) (hh : y + src.height ≤ d.height)
include hd hsrc hmode hw hh

section
variable (hx : x % 2 = 0) (hn : src.width % 2 = 0)
include hx hn

/-- A row copy answers with the row's source bytes from the address of its first pixel on, and every other byte as
before. -/
theorem Buffer.copyRow_bytes {r : Nat} (hr : r < src.height) :
    ∃ d', d.copyRow src x y r = some d' ∧ d.Continues d' ∧ ∀ k, d'.byte k =
      if addressOf d.mode d.width x (y + r) ≤ k ∧
          k - addressOf d.mode d.width x (y + r) < rowBytes src.mode src.width then
        src.byte (addressOf src.mode src.width 0 r + (k - addressOf d.mode d.width x (y + r)))
      else d.byte k := by
  have hpos : 0 < src.width := hsrc.1.1
  have hread : addressOf src.mode src.width 0 r + rowBytes src.mode src.width ≤ src.len :=
    hsrc.len_eq ▸ row_le_storageLength rfl hn (by omega) hpos hr
  have hwrite := row_le_storageLength (mode := d.mode) (h := d.height) (y := y + r) hx hn hw hpos (by omega)
  obtain ⟨d', hd', hsound, hshape, hbyte⟩ := hd.sound.memWrite_of_le
    (a := addressOf d.mode d.width x (y + r))
    (bs := src.bytesFrom (addressOf src.mode src.width 0 r) (rowBytes src.mode src.width))
    (by rw [Buffer.bytesFrom_length, ← hmode, hd.len_eq]; exact hwrite)
  refine ⟨d', ?_, ⟨hsound, hshape⟩, fun k => ?_⟩
  · rw [Buffer.copyRow, rowSource_eq_addressOf, rowTarget_eq_addressOf _ hx, hmode, Buffer.memRead_of_le hread]
    rwa [hmode] at hd'
  · rw [hbyte, Buffer.bytesFrom_getElem?, ite_and]
    split_ifs <;> rfl

/-- A row copy leaves what the pixel writes of the row leave. -/
theorem Buffer.copyRow_writes {r : Nat} (hr : r < src.height) :
    ∃ d', d.copyRow src x y r = some d' ∧ d.writePixels (src.rowWrites x y r) = some d' ∧ d.Continues d' := by
  obtain ⟨c, hcopy, ⟨hsound, hshape⟩, hbyte⟩ := Buffer.copyRow_bytes hd hsrc hmode hw hh hx hn hr
  obtain ⟨c', hws, ⟨hsound', hshape'⟩, hunowned, howned⟩ := hd.writePixels_lastWrites (src.rowWrites_pairwise x y r)
    (by
      simp only [Buffer.rowWrites, List.forall_mem_map, List.mem_range, Buffer.copyWrite_x, Buffer.copyWrite_y]
      omega)
  simp only [Buffer.rowWrites, List.forall_mem_map, List.mem_range, Buffer.copyWrite_x, Buffer.copyWrite_y,
    Buffer.copyWrite_value] at hunowned howned
  suffices h : ∀ k, c'.byte k = c.byte k by
    obtain rfl := Buffer.ext_of_byte hsound hsound' (Buffer.sameShape.symm_trans hshape hshape') h
    exact ⟨c', hcopy, hws, hsound, hshape⟩
  intro k
  refine BitVec.eq_of_getLsbD_eq fun j hj => ?_
  rw [hbyte]
  split_ifs with hk
  · -- a bit of the row belongs to one of its pixels, the same one in the source and in the destination
    obtain ⟨m, rfl⟩ := Nat.exists_eq_add_of_le hk.1
    rw [Nat.add_sub_cancel_left] at hk ⊢
    have hi := (nibbleOf_div_lt_iff hn (j := j)).2 hk.2
    have owner := ownsBit_add_column_iff (mode := d.mode) (w := d.width) hx (y + r) (m := m) (hj := hj)
    rw [← hmode] at hi
    rw [howned _ hi _ j ((owner _).2 rfl) fun i' _ hlater hown => ?_,
      src.copyWrite_lane hmode hx _ _ r ((owner _).2 rfl)]
    have := Buffer.copyWrite_before.1 hlater
    rw [owner] at hown
    omega
  · -- a bit outside the row's bytes belongs to none
    refine hunowned k j fun i hi hown => hk ?_
    have hle := le_of_ownsBit_add_column hx _ i hown
    obtain ⟨m, rfl⟩ := Nat.exists_eq_add_of_le hle
    rw [ownsBit_add_column_iff hx _ _ hj, hmode] at hown
    rw [Nat.add_sub_cancel_left, ← nibbleOf_div_lt_iff hn (j := j), hown]
    exact ⟨hle, hi⟩

/-- Row copies, one row after the other, leave what the pixel writes of the rows leave. -/
theorem Buffer.foldlM_copyRow_eq {rows : List Nat} (hrows : ∀ r ∈ rows, r < src.height) :
    rows.foldlM (fun c r => c.copyRow src x y r) d = d.writePixels (rows.flatMap (src.rowWrites x y)) := by
  induction rows generalizing d with
  | nil => rfl
  | cons r rows ih =>
    obtain ⟨hr, hrows⟩ := List.forall_mem_cons.1 hrows
    obtain ⟨c, hcopy, hws, hsound, hshape⟩ := Buffer.copyRow_writes hd hsrc hmode hw hh hx hn hr
    obtain ⟨hm, hwd, hht, -⟩ := id hshape
    rw [List.foldlM_cons, hcopy, List.flatMap_cons, Buffer.writePixels_append, hws]
    exact ih (hd.of_sameShape hshape hsound) (hm.trans hmode) (hwd ▸ hw) (hht ▸ hh) hrows

/-- The fast path is the writes of the fallback (R169). -/
theorem Buffer.copyRows_eq_writePixels : d.copyRows src x y = d.writePixels (src.blitWrites x y) := by
  rw [Buffer.blitWrites_eq_rows, Buffer.copyRows]
  exact Buffer.foldlM_copyRow_eq hd hsrc hmode hw hh hx hn fun r hr => List.mem_range.1 hr

end

/-- On either path BLIT's storage operation is its pixel writes (R168, R169). -/
theorem Buffer.blitFrom_eq_writePixels : d.blitFrom src x y = d.writePixels (src.blitWrites x y) := by
  unfold Buffer.blitFrom
  split
  · rename_i hfast
    obtain ⟨hx, hn⟩ := fastPath_even hfast
    exact Buffer.copyRows_eq_writePixels hd hsrc hmode hw hh hx hn
  · exact hsrc.copyPixels_eq_writePixels d x y

end

section
variable {p : Params} {d src : Buffer} {x y : Nat} (hd : d.wf p) (hw : x + src.width ≤ d.width)
  (hh : y + src.height ≤ d.height)
include hw hh

/-- A source that fits is written to in-range pixels. -/
theorem Buffer.blitWrites_inRange : ∀ q ∈ src.blitWrites x y, d.inRange q.x q.y := by
  intro q hq
  obtain ⟨i, r, ⟨hi, hr⟩, rfl⟩ := Buffer.mem_blitWrites.1 hq
  exact ⟨Nat.lt_of_lt_of_le (Nat.add_lt_add_left hi x) hw, Nat.lt_of_lt_of_le (Nat.add_lt_add_left hr y) hh⟩

include hd

theorem Buffer.wf.blitWrites_lastWrites :
    ∃ d', d.writePixels (src.blitWrites x y) = some d' ∧ d.LastWrites (src.blitWrites x y) d' :=
  hd.writePixels_lastWrites (src.blitWrites_pairwise x y) (Buffer.blitWrites_inRange hw hh)

end

/-- Settles O41: both paths are the same pixel writes, and those answer. The condition on an Rgb444 destination's width
is not needed. -/
theorem theFastPathEqualsTheFallback : Obligations.TheFastPathEqualsTheFallback := by
  unfold Obligations.TheFastPathEqualsTheFallback
  intro p d src x y hd hsrc hmode hw hh hfast
  obtain ⟨d', hws, -⟩ := hd.blitWrites_lastWrites hw hh
  refine ⟨d', ?_, ?_⟩
  · rw [Buffer.copyRows_eq_writePixels hd hsrc hmode hw hh (by omega) (by omega), hws]
  · rw [hsrc.copyPixels_eq_writePixels, hws]

/-! ## What BLIT leaves (R168 to R170) -/

/-- Settles O42: the copied pixels are in range and written in row-major order. -/
theorem blitLeavesTheRowMajorLastWrite : Obligations.BlitLeavesTheRowMajorLastWrite := by
  unfold Obligations.BlitLeavesTheRowMajorLastWrite
  intro s sel d src x y hs hd hsrc hmode hx hy hw hh
  have hsrcwf := hs.slot_wf hsrc
  obtain ⟨d', hws, ⟨-, hshape⟩, hunowned, howned⟩ := (hs.slot_wf hd).blitWrites_lastWrites hw hh
  rw [← Buffer.blitFrom_eq_writePixels (hs.slot_wf hd) hsrcwf hmode hw hh] at hws
  refine ⟨d', execBlit_of_blitFrom hd hsrc hmode hx hy hw hh hws, hshape, fun k j _ => ⟨fun hno => ?_, ?_⟩⟩
  · refine hunowned k j fun q hq => ?_
    obtain ⟨i, r, hr, rfl⟩ := Buffer.mem_blitWrites.1 hq
    exact hno i r hr
  · intro i r v hr hv hown hlast
    rw [hsrcwf.readPixel_pixelValue hr, Option.some.injEq] at hv
    subst hv
    refine howned _ (Buffer.mem_blitWrites.2 ⟨i, r, hr, rfl⟩) k j hown fun q' hq' hlater => ?_
    obtain ⟨i', r', hr', rfl⟩ := Buffer.mem_blitWrites.1 hq'
    exact hlast i' r' hr' (Buffer.copyWrite_before.1 hlater)

/-! ## BLIT on an even width (R115, R168) -/

section
variable {p : Params} {b b' : Buffer} {ws : List PixelWrite} (hb : b.wf p) (heven : b.width % 2 = 0)
  (h : b.LastWrites ws b') (hin : ∀ q ∈ ws, b.inRange q.x q.y)
include hb heven h hin

/-- With an even width the last writer of a pixel's bits is the pixel: it reads the value written there. -/
theorem Buffer.LastWrites.readPixel_written {q : PixelWrite} (hq : q ∈ ws) (hv : valueFits b.mode q.value) :
    b'.readPixel q.x q.y = some q.value := by
  refine hb.readPixel_of_lanes h.continues.2 (hin q hq) hv fun k j hown => ?_
  refine h.owned q hq k j hown fun q' hq' hlater hown' => ?_
  obtain ⟨hx, hy⟩ := Prod.mk.inj (ownsBit_unique heven (hin q' hq').1 (hin q hq).1 hown' hown)
  unfold PixelWrite.before at hlater
  omega

/-- With an even width a pixel that no write names reads what it did. -/
theorem Buffer.LastWrites.readPixel_unwritten {x y : Nat} (hr : b.inRange x y)
    (hno : ∀ q ∈ ws, (q.x, q.y) ≠ (x, y)) : b'.readPixel x y = b.readPixel x y := by
  refine (hb.readPixel_eq_iff h.continues.2 hr).2 fun k j hown => ?_
  exact h.unowned k j fun q hq hown' => hno q hq (ownsBit_unique heven (hin q hq).1 hr.1 hown' hown)

end

/-- Settles O43: BLIT ended OK, so it made its pixel writes, and with an even width no two of them meet. -/
theorem blitOnEvenWidthCopiesExactlyTheSource : Obligations.BlitOnEvenWidthCopiesExactlyTheSource := by
  unfold Obligations.BlitOnEvenWidthCopiesExactlyTheSource
  intro s t sel d d' src x y hs hd hsrc heven hx hy h hok hd'
  obtain rfl | rfl | rfl | ⟨c, src', c', hc, hsrc', hmode, hfit, hblit, rfl⟩ := execBlit_next h
  · cases hok
  · cases hok
  · cases hok
  obtain rfl : c = d := Option.some.inj (hc.symm.trans hd)
  obtain rfl : src' = src := Option.some.inj (hsrc'.symm.trans hsrc)
  obtain rfl : c' = d' := by simpa using hd'
  have hdwf := hs.slot_wf hd
  have hsrcwf := hs.slot_wf hsrc
  have hw : x + src'.width ≤ c.width := by omega
  have hh : y + src'.height ≤ c.height := by omega
  rw [hx, hy, Int.toNat_natCast, Int.toNat_natCast,
    Buffer.blitFrom_eq_writePixels hdwf hsrcwf hmode hw hh] at hblit
  have hin := Buffer.blitWrites_inRange hw hh
  obtain ⟨_, hws, hlast⟩ := hdwf.blitWrites_lastWrites hw hh
  obtain rfl := Option.some.inj (hws.symm.trans hblit)
  refine ⟨fun i r hr => ?_, fun i r hr hout => ?_⟩
  · rw [hsrcwf.readPixel_pixelValue hr]
    exact hlast.readPixel_written hdwf heven hin (Buffer.mem_blitWrites.2 ⟨i, r, hr, rfl⟩)
      (hmode ▸ src'.pixelValue_fits i r)
  · refine hlast.readPixel_unwritten hdwf heven hin hr fun q hq hpixel => hout ?_
    obtain ⟨i', r', hr', rfl⟩ := Buffer.mem_blitWrites.1 hq
    obtain ⟨rfl, rfl⟩ := Prod.mk.inj hpixel
    exact ⟨⟨Nat.le_add_right x i', Nat.add_lt_add_left hr'.1 x⟩, Nat.le_add_right y r', Nat.add_lt_add_left hr'.2 y⟩

end Sys2Proof.Machine

/-! PROOFS. Buffer management and raw access (44_buffer_management.md): how CONFIG, RAWRD and RAWWR end, and that the
adoption of a byte sequence is one MemWrite from index 0. -/

namespace Sys2Proof.Machine

/-! ## CONFIG (R180 to R182) -/

/-- L with the bits per pixel written out (R9, R10). -/
theorem storageLength_eq_ite (mode : Mode) (w h : Nat) :
    storageLength mode w h = (w * h * (if mode = .gray4 then 4 else 12) + 7) / 8 := by
  cases mode <;> rfl

/-- CONFIG that passes R180 completes with the new buffer in the slot. -/
theorem execConfig_of_fits {s : State} {mode : Mode} {w h : Nat} (sel : Slot) (hw : s.operandW = w)
    (hh : s.operandH = h) (hw1 : 1 ≤ w) (hh1 : 1 ≤ h) (hl : storageLength mode w h ≤ s.params.pLMax) :
    exec (.config sel mode) s = .next (s.setSlot sel (freshBuffer mode w h)).complete := by
  rw [exec, execConfig, if_neg (by omega), hw, hh, Int.toNat_natCast, Int.toNat_natCast, if_neg (Nat.not_lt.2 hl)]

/-- Settles O44: the checks pass, and every byte of a new buffer is 0x00. -/
theorem configMakesAZeroFilledBuffer : Obligations.ConfigMakesAZeroFilledBuffer := by
  unfold Obligations.ConfigMakesAZeroFilledBuffer
  intro s sel mode w h hw hh hw1 hh1 hl
  rw [← storageLength_eq_ite] at hl ⊢
  refine ⟨freshBuffer mode w h, execConfig_of_fits sel hw hh hw1 hh1 hl, rfl, rfl, rfl, rfl, fun i hi => ?_⟩
  rw [Buffer.load_of_lt hi, freshBuffer_byte]

/-- Settles O45: a side below 1 fails the first check, and with sides of 1 or more L on the operands is L on numbers. -/
theorem badConfigChangesNoSlot : Obligations.BadConfigChangesNoSlot := by
  unfold Obligations.BadConfigChangesNoSlot
  intro s sel mode hbad
  rw [exec, execConfig, ← State.raise]
  by_cases hside : s.operandW < 1 ∨ s.operandH < 1
  · rw [if_pos hside]
  · obtain ⟨w, hw⟩ := Int.eq_ofNat_of_zero_le (show 0 ≤ s.operandW by omega)
    obtain ⟨h, hh⟩ := Int.eq_ofNat_of_zero_le (show 0 ≤ s.operandH by omega)
    have hlong : storageLength mode s.operandW.toNat s.operandH.toNat > s.params.pLMax := by
      have hlong := (or_assoc.2 hbad).resolve_left hside
      rw [hw, hh] at hlong ⊢
      rw [storageLength_eq_ite]
      exact_mod_cast hlong
    rw [if_neg hside, if_pos hlong]

/-! ## Raw access (R184, R185) -/

/-- RAWRD below L completes with the byte in RES_BYTE. -/
theorem execRawrd_of_lt {s : State} {sel : Slot} {b : Buffer} (hb : s.slot sel = some b) (hlt : s.operandI < b.len) :
    exec (.rawrd sel) s = .next (s.setByte ((b.byte s.operandI).setWidth 32)).complete := by
  rw [exec, execRawrd, withBuffer_some hb, if_neg (Nat.not_le.2 hlt), Buffer.load_of_lt hlt, withStored_some]

/-- Settles O46: a slot not valid, an index below L and an index from L up are the three ends of RAWRD. -/
theorem rawrdReturnsTheByteOrRaises : Obligations.RawrdReturnsTheByteOrRaises := by
  unfold Obligations.RawrdReturnsTheByteOrRaises
  intro s sel
  refine ⟨fun hnone => ?_, fun b hb => ⟨execRawrd_of_lt hb, fun (hle : b.len ≤ s.operandI) => ?_⟩⟩
  · rw [exec, execRawrd, withBuffer_none hnone, State.raise]
  · rw [exec, execRawrd, withBuffer_some hb, if_pos hle, State.raise]

/-- RAWWR below L completes with the byte stored. -/
theorem execRawwr_of_lt {s : State} {sel : Slot} {b : Buffer} (hb : s.slot sel = some b) (hlt : s.operandI < b.len) :
    exec (.rawwr sel) s = .next (s.setSlot sel (b.withByte s.operandI s.operandB)).complete := by
  rw [exec, execRawwr, withBuffer_some hb, if_neg (Nat.not_le.2 hlt), Buffer.store_of_lt _ hlt, withStored_some]

/-- RAWWR at or above L raises INDEX_FAULT. -/
theorem execRawwr_of_le {s : State} {sel : Slot} {b : Buffer} (hb : s.slot sel = some b) (hle : b.len ≤ s.operandI) :
    exec (.rawwr sel) s = .next (s.raise .indexFault) := by
  rw [exec, execRawwr, withBuffer_some hb, if_pos hle]

/-- Settles O47: the store changes the one byte, and the operand is its low 8 bits (R76). -/
theorem rawwrStoresTheByteOrRaises : Obligations.RawwrStoresTheByteOrRaises := by
  unfold Obligations.RawwrStoresTheByteOrRaises
  intro s sel hs
  refine ⟨fun hnone => ?_, fun b hb => ⟨fun hlt => ?_, execRawwr_of_le hb⟩⟩
  · rw [exec, execRawwr, withBuffer_none hnone, State.raise]
  · have hbyte := (hs.slot_wf hb).sound.byte_withByte s.operandI s.operandB
    obtain ⟨-, -, -, -, -, -, -, hlow⟩ := operandsAreReadAsTheRuleSays s
    refine ⟨_, execRawwr_of_lt hb hlt, b.withByte_sameShape _ _, ?_, fun k (hk : k ≠ s.operandI) => ?_⟩
    · rw [← State.operandI, hbyte, if_pos rfl, hlow]
    · rw [hbyte, if_neg hk]

/-! ## Adoption of a byte sequence (R183) -/

/-- The state with OPI and OPB loaded for the RAWWR of one adopted byte (R183). -/
def State.loadRawwr (s : State) (i : Nat) (v : Byte) : State :=
  (s.writeReg .opi (BitVec.ofNat 32 i)).writeReg .opb (v.setWidth 32)

@[simp] theorem State.loadRawwr_slot (s : State) (i : Nat) (v : Byte) (k : Slot) :
    (s.loadRawwr i v).slot k = s.slot k := by simp [State.loadRawwr]

@[simp] theorem State.loadRawwr_errSeen (s : State) (i : Nat) (v : Byte) : (s.loadRawwr i v).errSeen = s.errSeen := rfl

/-- An index that fits OPI is the operand it was written as. -/
theorem State.writeReg_opi_operandI (s : State) {i : Nat} (hi : i < 2 ^ 32) :
    (s.writeReg .opi (BitVec.ofNat 32 i)).operandI = i := Nat.mod_eq_of_lt hi

theorem State.loadRawwr_operandI (s : State) {i : Nat} (v : Byte) (hi : i < 2 ^ 32) : (s.loadRawwr i v).operandI = i :=
  s.writeReg_opi_operandI hi

@[simp] theorem State.loadRawwr_operandB (s : State) (i : Nat) (v : Byte) : (s.loadRawwr i v).operandB = v :=
  BitVec.eq_of_toNat_eq (by simp [State.loadRawwr, State.writeReg, State.operandB, BitVec.extractLsb'_toNat]; omega)

/-- An adoption goes on from where its first RAWWR ends. -/
theorem adoptBytes_cons {s t : State} {sel : Slot} {i : Nat} {v : Byte} (vs : List Byte)
    (h : exec (.rawwr sel) (s.loadRawwr i v) = .next t) :
    adoptBytes sel i (v :: vs) s = adoptBytes sel (i + 1) vs t := by
  rw [adoptBytes, show exec (.rawwr sel) { s with opi := BitVec.ofNat 32 i, opb := v.setWidth 32 } = .next t from h]

/-- Adopting bytes from index i up leaves in the slot what MemWrite of them answers, and every RAWWR of it ends OK. -/
theorem adoptBytes_of_memWrite {s : State} {sel : Slot} {b b' : Buffer} {i : Nat} {vs : List Byte} (hok : s.code = .ok)
    (hb : s.slot sel = some b) (hw : b.memWrite i vs = some b') (hlen : b.len ≤ 2 ^ 32) :
    ∃ u, adoptBytes sel i vs s = .next u ∧ u.code = .ok ∧ u.errSeen = s.errSeen ∧ u.slot sel = some b' := by
  induction vs generalizing s b i with
  | nil => exact ⟨s, rfl, hok, rfl, hb.trans hw⟩
  | cons v vs ih =>
    simp only [Buffer.memWrite, Option.bind_eq_bind, Option.bind_eq_some_iff] at hw
    obtain ⟨c, hc, hw⟩ := hw
    obtain ⟨hi, rfl⟩ := Buffer.store_eq_some.1 hc
    have hopi := s.loadRawwr_operandI v (Nat.lt_of_lt_of_le hi hlen)
    have hstep := execRawwr_of_lt ((s.loadRawwr_slot i v sel).trans hb) (hopi.symm ▸ hi)
    rw [hopi, State.loadRawwr_operandB] at hstep
    rw [adoptBytes_cons vs hstep]
    obtain ⟨u, hu, hcode, herr, hslot⟩ :=
      ih (s := ((s.loadRawwr i v).setSlot sel (b.withByte i v)).complete) rfl (by simp) hw hlen
    exact ⟨u, hu, hcode, herr.trans (by simp), hslot⟩

/-- RAWWR with L itself in OPI raises INDEX_FAULT (R183). -/
theorem execRawwr_at_len {s : State} {sel : Slot} {b : Buffer} (hb : s.slot sel = some b) (hlen : b.len < 2 ^ 32) :
    exec (.rawwr sel) (s.writeReg .opi (BitVec.ofNat 32 b.len)) =
      .next ((s.writeReg .opi (BitVec.ofNat 32 b.len)).raise .indexFault) :=
  execRawwr_of_le ((s.writeReg_slot _ _ sel).trans hb) (s.writeReg_opi_operandI hlen).ge

/-- Settles O48: CONFIG ended OK, so the slot holds a new buffer, and the adoption is one MemWrite into it. -/
theorem adoptedBytesBecomeTheStorage : Obligations.AdoptedBytesBecomeTheStorage := by
  unfold Obligations.AdoptedBytesBecomeTheStorage
  intro s t sel mode b bytes _ h hok hb hlen hfit
  obtain ⟨hsound, hzero⟩ : b.Sound ∧ ∀ k, b.byte k = 0x00#8 := by
    obtain rfl | ⟨-, -, -, rfl⟩ := execConfig_next h
    · cases hok
    · obtain rfl : freshBuffer mode _ _ = b := by simpa using hb
      exact ⟨freshBuffer_sound _ _ _, freshBuffer_byte _ _ _⟩
  refine ⟨fun n => ?_, ?_⟩
  · have htake : 0 + (bytes.take n).length ≤ b.len := by rw [List.length_take]; omega
    obtain ⟨b', hw, -⟩ := hsound.memWrite_of_le htake
    obtain ⟨u, hu, hcode, herr, -⟩ := adoptBytes_of_memWrite hok hb hw hlen.le
    exact ⟨u, hu, hcode, herr⟩
  · obtain ⟨b', hw, -, hshape, hbytes⟩ := hsound.memWrite_of_le (a := 0) (bs := bytes) (by omega)
    obtain ⟨u, hu, -, -, hslot⟩ := adoptBytes_of_memWrite hok hb hw hlen.le
    obtain ⟨-, -, -, hl⟩ := id hshape
    refine ⟨u, b', hu, hslot, hshape, fun k _ => ?_, ?_⟩
    · rw [hbytes, if_pos (Nat.zero_le k), hzero, Nat.sub_zero]
    · rw [← hl] at hlen ⊢
      exact ⟨_, execRawwr_at_len hslot hlen, rfl⟩

end Sys2Proof.Machine

/-! PROOFS. How commands and steps end (60_exceptions.md): a raised or a completed command's STATUS, the one code each
command word ends with, and the step of a host program that is over. -/

namespace Sys2Proof.Machine

/-! ## STATUS after a raised and after a completed command (R202, R203) -/

/-- Settles O49: a command that completes ends OK, and a raised code is an update of STATUS alone. -/
theorem aRaisedCommandChangesOnlyStatus : Obligations.ARaisedCommandChangesOnlyStatus := by
  unfold Obligations.ARaisedCommandChangesOnlyStatus
  intro i s t h hc
  rcases exec_next h with ⟨c, -, rfl⟩ | h
  · rfl
  · exact absurd h.code_ok hc

theorem Completes.errSeen_eq {i : Instr} {s t : State} (h : Completes s i t) : t.errSeen = s.errSeen := by
  cases h <;> simp

/-- Settles O50: only a raised code sets ERRSEEN, and a raised code is not OK. -/
theorem aCompletedCommandKeepsErrseen : Obligations.ACompletedCommandKeepsErrseen := by
  unfold Obligations.ACompletedCommandKeepsErrseen
  intro i s t h hok
  rcases exec_next h with ⟨c, hc, rfl⟩ | h
  · exact absurd hok hc
  · exact h.errSeen_eq

/-! ## The code a command ends with (R204) -/

/-- The next state of an outcome, where there is one, has code c. -/
def EndsWith (r : Result) (c : StatusCode) : Prop := ∀ t, r = .next t → t.code = c

theorem endsWith_next (t : State) : EndsWith (.next t) t.code := fun _ h => by cases h; rfl

theorem endsWith_raise (s : State) (c : StatusCode) : EndsWith (.next (s.raise c)) c := endsWith_next _

theorem endsWith_complete (s : State) : EndsWith (.next s.complete) .ok := endsWith_next _

theorem endsWith_withStored {α : Type} (r : Option α) (k : α → State) : EndsWith (withStored r k) .ok := fun t h => by
  obtain ⟨a, -, rfl⟩ := withStored_eq_next h
  rfl

/-- A check and the code for it, decided alike. -/
theorem EndsWith.ite {p : Prop} [Decidable p] {r r' : Result} {c c' : StatusCode} (h : EndsWith r c)
    (h' : EndsWith r' c') : EndsWith (if p then r else r') (if p then c else c') := by
  split
  · exact h
  · exact h'

/-- A range check that raises one code, before a command that ends OK. -/
theorem endsWith_check {p : Prop} [Decidable p] (s : State) (c : StatusCode) {r : Result} (h : EndsWith r .ok) :
    EndsWith (if p then .next (s.raise c) else r) (if p then c else .ok) := .ite (endsWith_raise s c) h

section
variable {s : State} {sel : Slot}

/-- The slot check comes first, and after it the command ends with the code of its other checks. -/
theorem endsWith_withBuffer {k : Buffer → Result} {c : StatusCode} (hnone : s.slot sel = none → .notConfigured = c)
    (hk : ∀ b, s.slot sel = some b → EndsWith (k b) c) : EndsWith (withBuffer s sel k) c := fun t h => by
  rcases withBuffer_eq_next h with ⟨hs, rfl⟩ | ⟨b, hb, h⟩
  · exact hnone hs
  · exact hk b hb t h

/-- ADDR, GETPX and SETPX share their checks, so they share the code (R120, R121). -/
theorem endsWith_withPixel {k : Buffer → Nat → Nat → Result} (hk : ∀ b x y, EndsWith (k b x y) .ok) :
    EndsWith (withPixel s sel k) (endCode (.addr sel) s) := by
  refine endsWith_withBuffer (fun hs => by rw [endCode, hs]) fun b hb => ?_
  simp only [endCode, hb]
  by_cases hr : s.operandX < 0 ∨ s.operandX ≥ b.width ∨ s.operandY < 0 ∨ s.operandY ≥ b.height
  · rw [if_pos hr, if_neg (by omega)]
    exact endsWith_raise s _
  · rw [if_neg hr, if_pos (by omega)]
    exact hk b _ _

end

/-- The checks of each command stand in R204's order. -/
theorem exec_endsWith (i : Instr) (s : State) : EndsWith (exec i s) (endCode i s) := by
  cases i with
  | config sel mode =>
    have raised := endsWith_raise s .badConfig
    rw [exec, execConfig, ite_or, endCode, ite_or, ite_or]
    exact .ite raised (.ite raised (.ite raised (endsWith_complete _)))
  | addr sel => exact endsWith_withPixel fun b x y => endsWith_complete _
  | getpx sel => exact endsWith_withPixel fun b x y => endsWith_withStored _ _
  | setpx sel => exact endsWith_withPixel fun b x y => endsWith_withStored _ _
  | fill sel =>
    refine endsWith_withBuffer (fun hs => by rw [endCode, hs]) fun b hb => ?_
    rw [endCode, hb]
    exact endsWith_withStored _ _
  | fillrect sel | rawrd sel | rawwr sel =>
    refine endsWith_withBuffer (fun hs => by rw [endCode, hs]) fun b hb => ?_
    rw [endCode, hb]
    exact endsWith_check s _ (endsWith_withStored _ _)
  | invert sel => exact endsWith_raise s _
  | blit sel =>
    refine endsWith_withBuffer (fun hs => by rw [endCode, hs]) fun d hd => ?_
    refine endsWith_withBuffer (fun hs => by rw [endCode, hd, hs]) fun src hsrc => ?_
    rw [endCode, hd, hsrc]
    exact .ite (endsWith_raise s _) (endsWith_check s _ (endsWith_withStored _ _))

/-- From a state that meets the invariant every command has a next state. -/
theorem State.Inv.exec_answers {s : State} (hs : s.Inv) (i : Instr) : ∃ t, exec i s = .next t := by
  cases h : exec i s with
  | next t => exact ⟨t, rfl⟩
  | fault f => exact absurd h (hs.exec_ne_fault i f)
  | refused x => exact absurd h (exec_ne_refused i s x)

/-- Settles O51: a word that is no command raises ILLEGAL, and a command answers with the code of its checks. -/
theorem eachWordEndsWithItsFirstFailingCheck : Obligations.EachWordEndsWithItsFirstFailingCheck := by
  unfold Obligations.EachWordEndsWithItsFirstFailingCheck
  intro w s hs
  cases hw : decode w with
  | error e => exact ⟨_, runCommand_of_illegal (by simp [hw]) s, rfl⟩
  | ok i =>
    obtain ⟨t, ht⟩ := (hs.writeReg .cmd w).exec_answers i
    exact ⟨t, (runCommand_of_decode hw s).trans ht, exec_endsWith i _ t ht⟩

/-! ## The end of the host program (R213; log 1) -/

/-- Settles O8: past the last entry of the list there is no action. -/
theorem theEndedProgramHoldsTheState : Obligations.TheEndedProgramHoldsTheState := by
  unfold Obligations.TheEndedProgramHoldsTheState
  intro s hover
  have hnone : s.currentAction = none := List.getElem?_eq_none hover
  rw [step, hnone]

end Sys2Proof.Machine

/-! PROOFS. Reset and hazards (70_reset_and_hazards.md): what reset leaves, that it alone clears ERRSEEN, what a command
finds on a slot that is not valid, and the operands that stay behind a command. -/

namespace Sys2Proof.Machine

/-! ## The state after reset (R230) -/

/-- STATUS reads 0 when CODE is OK and ERRSEEN is clear (R24). -/
theorem statusWord_ok_clear : statusWord .ok false = 0#32 := by decide

@[simp] theorem State.resetWith_readReg (p : Params) (r : RegName) : (State.resetWith p).readReg r = 0#32 := by
  cases r
  case status => exact statusWord_ok_clear
  all_goals rfl

@[simp] theorem State.resetWith_slot (p : Params) (k : Slot) : (State.resetWith p).slot k = none := by cases k <;> rfl

/-- P_LMAX is all that reset takes from the parameters into the invariant. -/
theorem State.resetWith_inv {p : Params} (hp : 0 < p.pLMax) : (State.resetWith p).Inv :=
  ⟨hp, by simp [State.resetWith]⟩

/-- Settles O1: every register of the map holds 0 after reset, STATUS as OK with ERRSEEN clear. -/
theorem resetGivesEveryRegisterItsResetValue : Obligations.ResetGivesEveryRegisterItsResetValue := by
  unfold Obligations.ResetGivesEveryRegisterItsResetValue
  exact ⟨⟨Config.params, rfl⟩, fun p => ⟨State.resetWith_readReg p, State.resetWith_slot p, rfl, rfl, rfl⟩⟩

/-- Settles O3: both slots are not valid, CODE is OK and the result registers hold 0. -/
theorem resetStateMeetsTheInvariant : Obligations.ResetStateMeetsTheInvariant := by
  unfold Obligations.ResetStateMeetsTheInvariant
  exact ⟨State.resetWith_inv (show 0 < Config.params.pLMax by decide), fun p => State.resetWith_inv⟩

/-! ## The platform's reset as a step, and ERRSEEN (R230; log 3) -/

/-- No register shows the host's side, which is all that the platform's reset keeps. -/
@[simp] theorem State.platformReset_readReg (s : State) (r : RegName) : s.platformReset.readReg r = 0#32 :=
  calc s.platformReset.readReg r
    _ = (State.resetWith s.params).readReg r := by cases r <;> rfl
    _ = 0#32 := State.resetWith_readReg s.params r

/-- The platform's reset keeps nothing but the host's side (R230). -/
theorem State.platformReset_congr {s s' : State} (h : SameHostSide s s') : s.platformReset = s'.platformReset := by
  obtain ⟨hparams, hprogram, hindex, hread⟩ := h
  rw [State.platformReset, State.platformReset, hparams, hprogram, hindex, hread]

theorem State.currentAction_congr {s s' : State} (h : SameHostSide s s') : s'.currentAction = s.currentAction := by
  obtain ⟨-, hprogram, hindex, -⟩ := h
  rw [State.currentAction, State.currentAction, hprogram, hindex]

theorem State.sameHostSide_advance {s s' : State} (h : SameHostSide s s') : SameHostSide s.advance s'.advance := by
  obtain ⟨hparams, hprogram, hindex, hread⟩ := h
  exact ⟨hparams, hprogram, congrArg (· + 1) hindex, hread⟩

theorem step_platformReset {s : State} (h : s.currentAction = some .platformReset) :
    step s = .next s.advance.platformReset := step_of_action h

/-- A command raises, which sets ERRSEEN, or completes, which leaves it (R202, R203). -/
theorem runCommand_keeps_errSeen {w : Word} {s t : State} (h : runCommand w s = .next t) (hs : s.errSeen = true) :
    t.errSeen = true := by
  rcases runCommand_event h with ⟨c, -, rfl⟩ | ⟨i, -, h⟩
  · rfl
  · rw [h.errSeen_eq, State.writeReg_errSeen, hs]

/-- Of the five events of a step only the platform's reset can clear ERRSEEN. -/
theorem step_keeps_errSeen {s t : State} (h : step s = .next t) (hs : s.errSeen = true)
    (hreset : s.currentAction ≠ some .platformReset) : t.errSeen = true := by
  rcases step_event h with ⟨-, rfl⟩ | ⟨w, rfl⟩ | (rfl | ⟨r, w, -, rfl⟩) | ⟨w, -, h⟩ | ⟨ha, -⟩
  · exact hs
  · exact hs
  · exact hs
  · rw [State.writeReg_errSeen, State.advance_errSeen, hs]
  · exact runCommand_keeps_errSeen h hs
  · exact absurd ha hreset

/-- Settles O2: the next state is the reset state with the host's side, and no other event clears ERRSEEN. -/
theorem platformResetClearsAllAndAloneClearsErrseen : Obligations.PlatformResetClearsAllAndAloneClearsErrseen := by
  unfold Obligations.PlatformResetClearsAllAndAloneClearsErrseen
  refine ⟨fun s ha => ?_, fun s s' ha hsame => ?_, fun s t h hs ht => ?_⟩
  · exact ⟨_, step_platformReset ha, State.platformReset_readReg _, State.platformReset_slot _, rfl, rfl, rfl, rfl⟩
  · have ha' : s'.currentAction = some .platformReset := (State.currentAction_congr hsame).trans ha
    rw [step_platformReset ha, step_platformReset ha', State.platformReset_congr (State.sameHostSide_advance hsame)]
  · by_contra hreset
    rw [step_keeps_errSeen h hs hreset] at ht
    cases ht

/-! ## Commands on a slot that is not valid (R120, R161, R232) -/

/-- The commands that need the slot in SEL look at it first. -/
theorem exec_of_slot_none {s : State} {sel : Slot} (hnone : s.slot sel = none) :
    ∀ i ∈ [Instr.addr sel, .getpx sel, .setpx sel, .fill sel, .fillrect sel, .blit sel, .rawrd sel, .rawwr sel],
      exec i s = .next (s.raise .notConfigured) := by
  intro i hi
  simp only [List.mem_cons, List.not_mem_nil, or_false] at hi
  rcases hi with rfl | rfl | rfl | rfl | rfl | rfl | rfl | rfl
  all_goals exact withBuffer_none hnone

/-- BLIT looks at its source before it compares modes (R161). -/
theorem execBlit_of_source_none {s : State} {sel : Slot} (hnone : s.slot (otherSlot sel) = none) :
    exec (.blit sel) s = .next (s.raise .notConfigured) := by
  cases hd : s.slot sel with
  | none => exact exec_of_slot_none hd _ (by simp)
  | some d => rw [exec, execBlit, withBuffer_some hd, withBuffer_none hnone]

/-- Settles O27: the slot check stands first in the eight commands, and CONFIG, INVERT and the decoder read no slot. -/
theorem unconfiguredSlotsRaiseNotConfigured : Obligations.UnconfiguredSlotsRaiseNotConfigured := by
  unfold Obligations.UnconfiguredSlotsRaiseNotConfigured
  intro s sel
  refine ⟨fun hnone i hi => ?_, fun mode hw hh hl => ?_, invertAlwaysRaisesNotImplemented s sel,
    fun w hw => ⟨_, runCommand_of_illegal hw s, rfl⟩⟩
  · by_cases hi' : i = .blit (otherSlot sel)
    · subst hi'
      exact execBlit_of_source_none (by rw [otherSlot_otherSlot, hnone])
    · exact exec_of_slot_none hnone i (by simpa [hi'] using hi)
  · exact ⟨_, execConfig_of_fits sel (by omega) (by omega) (by omega) (by omega) hl, rfl⟩

/-! ## What stays behind a command (R235) -/

/-- A command that completes writes its result registers and its slot, and no operand register. -/
theorem Completes.sameOperands {i : Instr} {s t : State} (h : Completes s i t) : SameOperands s t := by
  cases h <;> simp [SameOperands]

/-- Settles O54: a raised code changes STATUS alone, and a completed command neither operands nor the host's side. -/
theorem noCommandChangesOperandsOrTheHostSide : Obligations.NoCommandChangesOperandsOrTheHostSide := by
  unfold Obligations.NoCommandChangesOperandsOrTheHostSide
  intro i s t h
  refine ⟨?_, exec_sameHostSide h⟩
  rcases exec_next h with ⟨c, -, rfl⟩ | h
  · simp [SameOperands]
  · exact h.sameOperands

end Sys2Proof.Machine
